-- ==== Sys2Proof/Word.lean ====
section
/-! DEFINITION. The word types of the block: the widths of R14, R90 and R91. -/

namespace Sys2Proof

/-- The 32 bits of an IEEE 754 binary32 value (R14): what every sample, filter state, parameter register and
the phase accumulator hold. The bits are kept, so that a stored NaN keeps its payload (R25, R146). -/
abbrev F32 := BitVec 32

/-- A command word `CW` (R90). -/
abbrev CommandWord := BitVec 64

/-- A response word `RW` (R91). -/
abbrev ResponseWord := BitVec 40

/-- The sign and payload bits in which one quiet NaN differs from another: bit 22 is the sign, bits 21 to 0
the payload below the quiet bit (U2). -/
abbrev NanBits := BitVec 23

end Sys2Proof
end

