-- ==== Sys2Proof/Syntax.lean ====
section
/-! DEFINITION. The four host commands (R90, R109), the twelve parameter names (R99) and the fields of a
command word (R90). -/

namespace Sys2Proof

/-- The host commands: one constructor per row of spec/opcode_table.json. Nothing else of the block is
encoded: the operations of the datapath are steps of the wired schedule (30_encoding.md). -/
inductive Instr where
  /-- `INIT sr` (R200): build the engine for the sample rate `sr`, in Hz. -/
  | init (sr : BitVec 32)
  /-- `SETP id, value` (R142): write a parameter register. Ids 12 to 255 are well formed and name nothing (R93). -/
  | setp (id : BitVec 8) (value : F32)
  /-- `GETP id` (R143): read a parameter register. -/
  | getp (id : BitVec 8)
  /-- `PROC base, count` (R210): process `count` frames from word `base` of the sample buffer. -/
  | proc (count : BitVec 16) (base : BitVec 32)
deriving DecidableEq, Repr

/-- The parameter names of R99, in the order of their ids. -/
inductive Param where
  | preDelay | bandwidth | inputDiffusion1 | inputDiffusion2 | decay | decayDiffusion1
  | decayDiffusion2 | damping | excursionRate | excursionDepth | wet | dry
deriving DecidableEq, Repr

/-- The id of a parameter (R99). -/
def Param.id : Param → Fin 12
  | .preDelay => 0
  | .bandwidth => 1
  | .inputDiffusion1 => 2
  | .inputDiffusion2 => 3
  | .decay => 4
  | .decayDiffusion1 => 5
  | .decayDiffusion2 => 6
  | .damping => 7
  | .excursionRate => 8
  | .excursionDepth => 9
  | .wet => 10
  | .dry => 11

/-- The four fields every command word has (format C, R90). -/
structure Fields where
  op : BitVec 8
  id : BitVec 8
  count : BitVec 16
  data : BitVec 32
deriving DecidableEq, Repr

end Sys2Proof
end

