-- ==== Sys2Proof/WellFormed.lean ====
section
/-! DEFINITION. What makes the fields of a command word well formed: the reserved operation codes of R92 and
the must-be-zero fields of R90. Every `Instr` is well formed: its operands are exactly the fields its row
reads, and every value of those fields is legal (R93, R94, R95). -/

namespace Sys2Proof

/-- The operation codes of R92. -/
def opInit : BitVec 8 := 0x01#8
def opSetp : BitVec 8 := 0x02#8
def opGetp : BitVec 8 := 0x03#8
def opProc : BitVec 8 := 0x04#8

/-- `OP` is one of the four codes that are not reserved (R92). -/
def Fields.opKnown (f : Fields) : Bool :=
  f.op == opInit || f.op == opSetp || f.op == opGetp || f.op == opProc

/-- `ID` is zero where R90 says it must be: for `INIT` and `PROC`. -/
def Fields.idOk (f : Fields) : Bool :=
  f.op == opSetp || f.op == opGetp || f.id == 0#8

/-- `COUNT` is zero where R90 says it must be: for `INIT`, `SETP` and `GETP`. -/
def Fields.countOk (f : Fields) : Bool :=
  f.op == opProc || f.count == 0#16

/-- `DATA` is zero where R90 says it must be: for `GETP`. -/
def Fields.dataOk (f : Fields) : Bool :=
  f.op != opGetp || f.data == 0#32

/-- The fields spell a command (R90, R97). -/
def Fields.wf (f : Fields) : Bool :=
  f.opKnown && f.idOk && f.countOk && f.dataOk

/-- The fields of a command, those it does not use set to zero (R101). -/
def Instr.fields : Instr → Fields
  | .init sr => { op := opInit, id := 0#8, count := 0#16, data := sr }
  | .setp id value => { op := opSetp, id := id, count := 0#16, data := value }
  | .getp id => { op := opGetp, id := id, count := 0#16, data := 0#32 }
  | .proc count base => { op := opProc, id := 0#8, count := count, data := base }

/-- A command is well formed when its fields are. -/
def Instr.wf (i : Instr) : Bool := i.fields.wf

end Sys2Proof
end

