-- ==== Sys2Proof/Decode.lean ====
section
/-! DEFINITION. The decoder and the encoder of command words (R90 to R97, R101). -/

namespace Sys2Proof

/-! ### The fields of a word (R90) -/

/-- The word with these fields: `CW = OP ++ ID ++ COUNT ++ DATA` (R101). -/
def fieldsWord (f : Fields) : CommandWord := f.op ++ f.id ++ f.count ++ f.data

/-- `CW[63:56]`. -/
def opField (w : CommandWord) : BitVec 8 := w.extractLsb' 56 8

/-- `CW[55:48]`. -/
def idField (w : CommandWord) : BitVec 8 := w.extractLsb' 48 8

/-- `CW[47:32]`. -/
def countField (w : CommandWord) : BitVec 16 := w.extractLsb' 32 16

/-- `CW[31:0]`. -/
def dataField (w : CommandWord) : BitVec 32 := w.extractLsb' 0 32

/-- The fields of a word. -/
def wordFields (w : CommandWord) : Fields :=
  { op := opField w, id := idField w, count := countField w, data := dataField w }

/-! ### The decoder -/

/-- Why a word spells no command (R97). -/
inductive Reject where
  /-- `OP` is reserved (R92). -/
  | reservedOp
  /-- `ID` must be zero for this `OP` and is not (R90). -/
  | idNotZero
  /-- `COUNT` must be zero for this `OP` and is not (R90). -/
  | countNotZero
  /-- `DATA` must be zero for this `OP` and is not (R90). -/
  | dataNotZero
deriving DecidableEq, Repr

/-- A row of the opcode map (R96): the word spells the command when `CW & mask = pattern`. -/
structure OpcodeRow where
  mnemonic : String
  mask : CommandWord
  pattern : CommandWord
  read : CommandWord → Instr

/-- The opcode map (R96). -/
def opcodeRows : List OpcodeRow :=
  [ { mnemonic := "INIT", mask := 0xFFFFFFFF00000000#64, pattern := 0x0100000000000000#64,
      read := fun w => .init (dataField w) },
    { mnemonic := "SETP", mask := 0xFF00FFFF00000000#64, pattern := 0x0200000000000000#64,
      read := fun w => .setp (idField w) (dataField w) },
    { mnemonic := "GETP", mask := 0xFF00FFFFFFFFFFFF#64, pattern := 0x0300000000000000#64,
      read := fun w => .getp (idField w) },
    { mnemonic := "PROC", mask := 0xFFFF000000000000#64, pattern := 0x0400000000000000#64,
      read := fun w => .proc (countField w) (dataField w) } ]

/-- The test of a row (R96). -/
def rowMatches (w : CommandWord) (r : OpcodeRow) : Bool := w &&& r.mask == r.pattern

/-- The name of what is wrong with a word that passes no row's test (R97). -/
def rejectReason (f : Fields) : Reject :=
  if f.opKnown = false then .reservedOp
  else if f.idOk = false then .idNotZero
  else if f.countOk = false then .countNotZero
  else .dataNotZero

/-- Decoding, total on 64-bit words: the command of the first row whose test holds (R96), or a rejection by
name (R97). -/
def decode (w : CommandWord) : Except Reject Instr :=
  match opcodeRows.find? (rowMatches w) with
  | some r => .ok (r.read w)
  | none => .error (rejectReason (wordFields w))

/-- The instruction the decoder reads from the table's numbering of the bits: a command is one 64-bit word
whose bit 0 is bit 0 of `w`, and the bits from `nbits` up are zero. -/
def decodeTableWord (nbits w : Nat) : Option Instr :=
  match decode (BitVec.ofNat 64 (w % 2 ^ nbits)) with
  | .ok i => some i
  | .error _ => none

/-! ### The encoder -/

/-- The word of a command (R101). -/
def encode (i : Instr) : CommandWord := fieldsWord i.fields

end Sys2Proof
end

