-- ==== Sys2Proof/Config.lean ====
section
/-! DEFINITION. What the implementation fixes (R7, R33) and the free values: what the spec leaves open and a
program may run into (U2, U3, U4). -/

namespace Sys2Proof

/-- An exact decimal literal, `mantissa / 10^places` (R7: "exact decimal rationals"). -/
structure Decimal where
  mantissa : Nat
  places : Nat
deriving DecidableEq, Repr

/-- The sign of a tap (R7: "+1 or −1"). -/
inductive Sign where
  | plus
  | minus
deriving DecidableEq, Repr

/-- The parameters of the implementation (R7). They are configuration, not state: no command reads or writes
them (R33). The open functions `cos2pi` and `sin2pi` of `NUM` stand below as free values. -/
structure Config where
  /-- `MAX_SAMPLE_RATE`. -/
  maxSampleRate : BitVec 32
  /-- `LINE_SEC[0..11]`. -/
  lineSec : Vector Decimal 12
  /-- `TAP_SEC[0..13]`. -/
  tapSec : Vector Decimal 14
  /-- `TAP_LINE[0..13]`. -/
  tapLine : Vector (Fin 12) 14
  /-- `TAP_SIGN[0..13]`. -/
  tapSign : Vector Sign 14
  /-- `BUF_WORDS`. -/
  bufWords : BitVec 32
  /-- `DEPTH_DIV`. -/
  depthDiv : F32
deriving DecidableEq, Repr

/-- FREE VALUE (log entry 3): what stands behind `cos2pi` before the properties of R14 are imposed on it. -/
opaque Config.rawCos2pi : F32 → F32

/-- FREE VALUE (log entry 3): what stands behind `sin2pi` before the properties of R14 are imposed on it. -/
opaque Config.rawSin2pi : F32 → F32

/-- FREE VALUE (log entry 4): the bits of the NaN that the arithmetic operation at a given site of a given
frame produces, when its result is a NaN (U2: "drawn per operation"). -/
opaque Config.freeNan : (frame : Nat) → (site : Nat) → NanBits

/-- FREE VALUE (log entry 5): what an interpolated read at a NaN or infinite offset returns, at a given site
of a given frame (U4: "any value"). -/
opaque Config.freeRead : (frame : Nat) → (site : Nat) → F32

end Sys2Proof
end

