-- ==== Sys2Proof/Machine/Operands.lean ====
section
/-! DEFINITION. The numerics of the block: the exact integer functions of R11 and R12, and the binary32
operations of R14 and R15. Every finite binary32 is an integer multiple of 2^-149, its `units`; an operation
computes exactly in integers and rounds once. -/

namespace Sys2Proof.Machine

/-! ### Integers (R10, R11, R12) -/

/-- `nextPow2(n)`: the least power of two that is at least `n` (R11). -/
def nextPow2 (n : Nat) : Nat :=
  if n ≤ 1 then 1 else 2 ^ ((n - 1).log2 + 1)

/-- `a & m` for an integer `a` and a natural `m`: bitwise AND of the two's-complement representations
(R10). The two's complement of `-(n+1)` is the bitwise complement of `n`. -/
def maskInt (a : Int) (m : Nat) : Nat :=
  match a with
  | .ofNat n => n &&& m
  | .negSucc n => m ^^^ (m &&& n)

/-- `round(d · k)` of the exact product of a decimal and an integer, a half going up (R12, R121). -/
def roundTimes (d : Decimal) (k : Nat) : Nat :=
  (2 * d.mantissa * k + 10 ^ d.places) / (2 * 10 ^ d.places)

/-! ### The parts of a binary32 -/

namespace Fp

/-- The sign bit. -/
def sign (x : F32) : Bool := x.msb

/-- The 31 bits below the sign, as a number: the order of the magnitudes is the order of these. -/
def mag (x : F32) : Nat := x.toNat % 2 ^ 31

/-- The magnitude bits of an infinity. -/
def infMag : Nat := 0x7F800000

def isNan (x : F32) : Bool := decide (infMag < mag x)
def isInf (x : F32) : Bool := decide (mag x = infMag)
def isFinite (x : F32) : Bool := decide (mag x < infMag)
def isZero (x : F32) : Bool := decide (mag x = 0)

/-- The exact magnitude, in units of 2^-149, of the finite value with these magnitude bits. -/
def magUnits (m : Nat) : Nat :=
  if m / 2 ^ 23 = 0 then m else (2 ^ 23 + m % 2 ^ 23) * 2 ^ (m / 2 ^ 23 - 1)

/-- The exact value of a finite binary32, in units of 2^-149. -/
def units (x : F32) : Int :=
  if sign x then -(magUnits (mag x) : Int) else (magUnits (mag x) : Int)

/-- A binary32 from a sign and magnitude bits. -/
def pack (neg : Bool) (m : Nat) : F32 :=
  BitVec.ofNat 32 ((if neg then 2 ^ 31 else 0) + m)

def posZero : F32 := 0x00000000#32
def one : F32 := 0x3F800000#32
def two : F32 := 0x40000000#32
def three : F32 := 0x40400000#32
def five : F32 := 0x40A00000#32
def half : F32 := 0x3F000000#32

/-- A quiet NaN; which one is not fixed (U2), so its sign and payload are an argument. -/
def quietNan (q : NanBits) : F32 :=
  pack (q.getLsbD 22) (infMag + 2 ^ 22 + q.toNat % 2 ^ 22)

/-! ### Rounding (R14: roundTiesToEven, gradual underflow, no flush to zero) -/

/-- The magnitude bits of the binary32 nearest to `num / den` units of 2^-149, ties to even; those of
infinity when it overflows. The exponent `e` is 0 in the subnormal range and in the first binade; a
mantissa that rounds up to 2^24 carries into the exponent by itself. -/
def roundMag (num den : Nat) : Nat :=
  let e := (num / den).log2 - 23
  let d := den * 2 ^ e
  let m := num / d
  let r := num % d
  let up := decide (d < 2 * r) || (decide (2 * r = d) && decide (m % 2 = 1))
  min (e * 2 ^ 23 + (if up then m + 1 else m)) infMag

/-- The binary32 nearest to an exact signed number of units; an exact zero is `+0.0`. -/
def ofUnits (u : Int) : F32 := pack (decide (u < 0)) (roundMag u.natAbs 1)

/-! ### The operations (R14)

Each takes, before its operands, the bits of the NaN it delivers when its result is a NaN (U2). -/

/-- `fadd(a, b)`. An exact zero sum of operands of unlike sign is `+0.0`. -/
def fadd (q : NanBits) (a b : F32) : F32 :=
  if isNan a || isNan b then quietNan q
  else if isInf a then (if isInf b && sign a != sign b then quietNan q else a)
  else if isInf b then b
  else if units a + units b = 0 then pack (sign a && sign b) 0
  else ofUnits (units a + units b)

/-- `fneg(a)`: flips the sign bit (R192). -/
def fneg (a : F32) : F32 := a ^^^ 0x80000000#32

/-- `fsub(a, b)`. -/
def fsub (q : NanBits) (a b : F32) : F32 := fadd q a (fneg b)

/-- `fmul(a, b)`. -/
def fmul (q : NanBits) (a b : F32) : F32 :=
  if isNan a || isNan b then quietNan q
  else if isInf a || isInf b then
    (if isZero a || isZero b then quietNan q else pack (sign a != sign b) infMag)
  else pack (sign a != sign b) (roundMag (magUnits (mag a) * magUnits (mag b)) (2 ^ 149))

/-- `fdiv(a, b)`. -/
def fdiv (q : NanBits) (a b : F32) : F32 :=
  if isNan a || isNan b then quietNan q
  else if isInf a then (if isInf b then quietNan q else pack (sign a != sign b) infMag)
  else if isInf b then pack (sign a != sign b) 0
  else if isZero b then (if isZero a then quietNan q else pack (sign a != sign b) infMag)
  else pack (sign a != sign b) (roundMag (magUnits (mag a) * 2 ^ 149) (magUnits (mag b)))

/-- `u2f(n)`: the binary32 nearest to the unsigned integer `n`. -/
def u2f (n : Nat) : F32 := pack false (roundMag (n * 2 ^ 149) 1)

/-- `u2f_signed(n)`: the binary32 equal to the integer `n` (R126); of 0, `+0.0` (log entry 18). -/
def u2fSigned (n : Int) : F32 := ofUnits (n * 2 ^ 149)

/-- `floor(x)` of a finite value: exact (R15). -/
def floor (x : F32) : Int := units x / 2 ^ 149

/-- `trunc(x)` of a finite value that is not negative: exact (R15). -/
def truncNat (x : F32) : Nat := magUnits (mag x) / 2 ^ 149

/-- Imposes R14's second assumption on an open function's value: for every finite argument the result is
finite and in [−1, 1]. A raw value that breaks it is replaced by 1.0. -/
def unitInterval (p raw : F32) : F32 :=
  if isFinite p && decide (mag one < mag raw) then one else raw

/-- `cos2pi(p)`: any function with the properties R14 lists (log entry 3). -/
def cos2pi (p : F32) : F32 :=
  if p = posZero then one else unitInterval p (Config.rawCos2pi p)

/-- `sin2pi(p)`: any function with the properties R14 lists (log entry 3). -/
def sin2pi (p : F32) : F32 :=
  if p = posZero then posZero else unitInterval p (Config.rawSin2pi p)

end Fp

/-! ### Decimal literals (R14, R100) -/

/-- The binary32 nearest to a decimal literal, ties to even (R14, R100). -/
def literal (neg : Bool) (d : Decimal) : F32 :=
  Fp.pack neg (Fp.roundMag (d.mantissa * 2 ^ 149) (10 ^ d.places))

end Sys2Proof.Machine
end

