-- ==== Sys2Proof/Machine/Tables.lean ====
section
/-! DEFINITION. The tables of the spec: the parameter defaults (R25, R141), the default configuration tables
(R8, R9: general knowledge, not facts about maks/aq) and the literals the rules name (R14). -/

namespace Sys2Proof.Machine

/-- The parameter defaults that `INIT` writes, in the order of the ids (R25). -/
def paramDefaults : Vector F32 12 :=
  #v[0x00000000#32, 0x3F7FF972#32, 0x3F400000#32, 0x3F200000#32, 0x3F000000#32, 0x3F333333#32,
     0x3F000000#32, 0x3BA3D70A#32, 0x3F000000#32, 0x3F333333#32, 0x3E99999A#32, 0x3F19999A#32]

/-- `WET_SCALE = 0.6` (R6, R194). -/
def wetScale : F32 := 0x3F19999A#32

/-- `1000.0`, the value of `DEPTH_DIV` (R7, R171, D24). -/
def depthDivDefault : F32 := 0x447A0000#32

/-- Default `LINE_SEC` (R8). -/
def lineSecDefault : Vector Decimal 12 :=
  #v[⟨4771345, 9⟩, ⟨3595309, 9⟩, ⟨12734787, 9⟩, ⟨9307483, 9⟩, ⟨22579886, 9⟩, ⟨149625349, 9⟩,
     ⟨60481839, 9⟩, ⟨1249958, 7⟩, ⟨30509727, 9⟩, ⟨141695508, 9⟩, ⟨89244313, 9⟩, ⟨106280031, 9⟩]

/-- Default `TAP_SEC` (R9). -/
def tapSecDefault : Vector Decimal 14 :=
  #v[⟨8937872, 9⟩, ⟨99929438, 9⟩, ⟨64278754, 9⟩, ⟨67067639, 9⟩, ⟨66866033, 9⟩, ⟨6283391, 9⟩,
     ⟨35818689, 9⟩, ⟨11861161, 9⟩, ⟨121870905, 9⟩, ⟨41262054, 9⟩, ⟨8981553, 8⟩, ⟨70931756, 9⟩,
     ⟨11256342, 9⟩, ⟨4065724, 9⟩]

/-- Default `TAP_LINE` (R9). -/
def tapLineDefault : Vector (Fin 12) 14 := #v[9, 9, 10, 11, 5, 6, 7, 5, 5, 6, 7, 9, 10, 11]

/-- Default `TAP_SIGN` (R9). -/
def tapSignDefault : Vector Sign 14 :=
  #v[.plus, .plus, .minus, .plus, .minus, .minus, .minus,
     .plus, .plus, .minus, .plus, .minus, .minus, .minus]

/-- The suggested `MAX_SAMPLE_RATE` (R7, D3). -/
def maxSampleRateDefault : BitVec 32 := 192000#32

/-- `BUF_WORDS` of the default configuration, the largest u32 (DESIGN CHOICE, log entry 2: R64 leaves it open). -/
def bufWordsDefault : BitVec 32 := 0xFFFFFFFF#32

/-- The configuration in which `State.reset` stands (log entry 2). -/
def defaultConfig : Config where
  maxSampleRate := maxSampleRateDefault
  lineSec := lineSecDefault
  tapSec := tapSecDefault
  tapLine := tapLineDefault
  tapSign := tapSignDefault
  bufWords := bufWordsDefault
  depthDiv := depthDivDefault

end Sys2Proof.Machine
end

