-- ==== Sys2Proof/Machine/State.lean ====
section
/-! DEFINITION. The state of the block (10_state.md) and of its environment (R245, R275, R276), the faults and
refusals, and the state after reset. All of it is plain data. -/

namespace Sys2Proof.Machine

/-- The cells of a RAM of binary32 words (R61, R62), by index: the cells that do not hold `+0.0`, indices
strictly rising (log entry 13). A cell that is not listed holds `+0.0`, which is what `INIT` leaves in
every cell (R78). -/
abbrev Ram := List (Nat × F32)

/-- The host sample buffer as bytes (R63, R65), addresses strictly rising; a byte that is not listed reads
0x00 (log entry 6). -/
abbrev Memory := List Host.Cell

/-- A delay line (R23). -/
structure Line where
  /-- Capacity of `buf` in words. -/
  cap : Nat
  /-- The fixed feedback delay in frames, `length − 1`. -/
  size : Nat
  /-- Wrap mask of the cursor and of every read index, `cap − 1`. -/
  mask : Nat
  /-- The index of the cell this frame's write goes to. -/
  cur : Nat
  /-- The stored samples. -/
  buf : Ram
deriving DecidableEq, Repr

/-- The two agents that issue commands (R245). -/
inductive Agent where
  /-- Agent R, the render thread: `INIT`, `PROC`. -/
  | render
  /-- Agent C, the control thread: `SETP`, `GETP`. -/
  | control
deriving DecidableEq, Repr

/-- A command word on the port of an agent. -/
structure Call where
  agent : Agent
  word : CommandWord
deriving DecidableEq, Repr

/-- The record of `busy` (R22): a `PROC base, count` is in progress and `i` of its frames are done. `call` is
the model's own: whose command it is, hence who waits for its response (R91, log entry 15). -/
structure Block where
  base : BitVec 32
  count : BitVec 16
  i : BitVec 16
  call : Call
deriving DecidableEq, Repr

/-- The engine: every piece of state that has a value in `READY` only (R34, R35). -/
structure Engine where
  /-- `SR` (R30). -/
  sampleRate : BitVec 32
  /-- `P[0..11]` (R25). -/
  params : Vector F32 12
  /-- `LINE[0..11]` (R23, R24). -/
  lines : Vector Line 12
  /-- `tapOff[0..13]`, each a u32 (R27, D40). -/
  tapOff : Vector (BitVec 32) 14
  /-- `PD` (R26). -/
  preDelay : Ram
  pdLen : Nat
  pdW : Nat
  /-- The one-pole filter states (R28): input, left damping, right damping. -/
  lp1 : F32
  lp2 : F32
  lp3 : F32
  /-- The modulation phase accumulator (R29). -/
  phase : F32
  /-- `busy` (R22). -/
  busy : Option Block
deriving DecidableEq, Repr

/-- `mode` (R20). In `UNINIT` no engine exists and no other piece of state has a value (R34: "an option type,
or a state constructor without them"; log entry 1). -/
inductive Mode where
  /-- `UNINIT`. -/
  | uninit
  /-- `READY`, with the engine that exists. -/
  | ready (e : Engine)
deriving DecidableEq, Repr

/-- What can reach the block from outside, and the turn of its own datapath (R276; log entry 7). -/
inductive Event where
  /-- An agent has a command on its port. -/
  | command (call : Call)
  /-- The block in progress runs its next frame before the events that follow are served (R73, R211). -/
  | frame
  /-- The host writes a word of `BUF` (R60, R74). -/
  | hostWrite (word : BitVec 32) (value : F32)
  /-- The host reads a word of `BUF` (R60, R74). -/
  | hostRead (word : BitVec 32)
  /-- The `RESET` event (R260). -/
  | reset
deriving DecidableEq, Repr

/-- What the host observes of the block (R275). -/
inductive Observation where
  /-- The response word to a command (R91). -/
  | response (call : Call) (rw : ResponseWord)
  /-- The value of a word of `BUF`. -/
  | bufWord (word : BitVec 32) (value : F32)
deriving DecidableEq, Repr

/-- The state: the block, the host's sample buffer, and the environment's plain data. -/
structure State where
  /-- The configuration (R7, R33): no step changes it (log entry 2). -/
  cfg : Config
  /-- `mode`, and in `READY` the engine (R20). -/
  mode : Mode
  /-- `BUF` (R63). -/
  buf : Memory
  /-- MODEL: the events still to reach the block, first to be served first (log entry 7). -/
  pending : List Event
  /-- MODEL: the command being served, whose agent its response goes to (log entry 15). -/
  port : Call
  /-- MODEL: what has been observed, newest first (R275, log entry 15). -/
  observed : List Observation
  /-- MODEL: how many frames have run; the free values of the next frame are those of this index (log
  entries 4, 5, 14). -/
  draws : Nat
deriving DecidableEq, Repr

/-- Why the machine stops. The spec calls these "faults of the model" (R249): the hardware goes on and
nothing is said of what it then does. Stopping is safe: no claim is made about what follows. -/
inductive Fault where
  /-- Raised by `PROC`: its range is not inside `BUF` (R213, U5). Safe. -/
  | blockOutsideBuf
  /-- Raised by a host access to a word that a running block owns (R74, U6). Safe. -/
  | hostTouchedBlock
  /-- Raised by an access to a word of `BUF` that does not exist (R63: `0 ≤ w < BUF_WORDS`), by the host, or by
  a frame in a state that no run reaches. Safe. -/
  | noSuchWord
deriving DecidableEq, Repr

/-- Why an instruction has no meaning. No arm of `exec` answers it: every command has its meaning. -/
inductive Refusal where
  /-- Raised by an arm of `exec` whose instruction is not modelled; none is left. Safe. -/
  | notModelled (mnemonic : String)
deriving DecidableEq, Repr

/-- The state after the `RESET` event (R34, R260, R261): `mode = UNINIT`, hence `busy = none`, and no engine.
The configuration and the model's own fields hold the values of log entries 2, 6, 7, 14 and 15. -/
def State.reset : State where
  cfg := defaultConfig
  mode := .uninit
  buf := []
  pending := []
  port := { agent := .render, word := 0#64 }
  observed := []
  draws := 0

end Sys2Proof.Machine
end

