-- ==== Sys2Proof/Machine/Flags.lean ====
section
/-! DEFINITION. The block has no flags and no condition codes (R31). What stands in their place: the
comparisons of binary32 values (R15) and the status codes of a response (R91, R98). -/

namespace Sys2Proof.Machine

namespace Fp

/-- A number whose order is the numeric order of the binary32 values that are not NaNs, infinities included;
the two zeros have one. -/
def orderKey (x : F32) : Int := if sign x then -(mag x : Int) else (mag x : Int)

/-- `a < b` of IEEE 754: false when an operand is a NaN (R15). -/
def lt (a b : F32) : Bool := !isNan a && !isNan b && decide (orderKey a < orderKey b)

/-- `a ≥ b` of IEEE 754: false when an operand is a NaN (R15). -/
def ge (a b : F32) : Bool := !isNan a && !isNan b && decide (orderKey b ≤ orderKey a)

/-- `a ≤ b` of IEEE 754. -/
def le (a b : F32) : Bool := ge b a

end Fp

/-- The outcome of a command (R98, R230). -/
inductive Status where
  | ok | configurationError | parameterError | stateError | commandError
deriving DecidableEq, Repr

/-- The status codes of R98. -/
def statusCode : Status → BitVec 8
  | .ok => 0x00#8
  | .configurationError => 0x01#8
  | .parameterError => 0x02#8
  | .stateError => 0x03#8
  | .commandError => 0x04#8

/-- The response word `RW`: `STATUS` in bits 39 to 32, `DATA` in bits 31 to 0 (R91). -/
def responseWord (st : Status) (data : BitVec 32) : ResponseWord := statusCode st ++ data

end Sys2Proof.Machine
end

