-- ==== Sys2Proof/Machine/Ops.lean ====
section
/-! DEFINITION. The named operations over memory, registers and the response port: every access to a RAM, to
`BUF` and to a parameter register goes through them, and every answer to a command is one of `respond` and
`raise`. -/

namespace Sys2Proof.Machine

/-! ### Cells in canonical form -/

/-- Reads the cell with index `a`; a cell that is not listed reads zero. -/
def cellRead {w : Nat} : List (Nat × BitVec w) → Nat → BitVec w
  | [], _ => 0#w
  | (k, v) :: rest, a => if a = k then v else cellRead rest a

/-- A cell, or nothing where it holds what an unlisted cell reads. -/
def cellEntry {w : Nat} (a : Nat) (v : BitVec w) : List (Nat × BitVec w) :=
  if v = 0#w then [] else [(a, v)]

/-- Writes the cell with index `a`, keeping the canonical form. -/
def cellWrite {w : Nat} : List (Nat × BitVec w) → Nat → BitVec w → List (Nat × BitVec w)
  | [], a, v => cellEntry a v
  | (k, u) :: rest, a, v =>
    if a < k then cellEntry a v ++ (k, u) :: rest
    else if a = k then cellEntry a v ++ rest
    else (k, u) :: cellWrite rest a v

/-- The canonical form: indices strictly rising, no cell listed that holds zero, every index below `bound`. -/
abbrev cellsWf {w : Nat} (bound : Nat) (cells : List (Nat × BitVec w)) : Prop :=
  cells.Pairwise (fun c d => c.1 < d.1) ∧ (∀ c ∈ cells, c.2 ≠ 0#w) ∧ ∀ c ∈ cells, c.1 < bound

/-! ### The RAMs of the engine (R61, R62) -/

/-- Reads a cell of a RAM; a cell not written since `INIT` reads `+0.0`. -/
def ramRead (r : Ram) (j : Nat) : F32 := cellRead r j

/-- Writes a cell of a RAM: any bit pattern, unchanged (R122). -/
def ramWrite (r : Ram) (j : Nat) (v : F32) : Ram := cellWrite r j v

/-! ### The host sample buffer (R63, R65) -/

/-- The canonical form of `BUF` for a buffer of `words` words. -/
abbrev Memory.wf (words : Nat) (m : Memory) : Prop := cellsWf (4 * words) m

/-- One byte of `BUF`. -/
def readByte (m : Memory) (a : Nat) : BitVec 8 := cellRead m a

/-- Writes one byte of `BUF`. -/
def writeByte (m : Memory) (a : Nat) (v : BitVec 8) : Memory := cellWrite m a v

/-- `BufRead(w)` = `MemRead(4w, 4)` (R63), the least significant byte at `4w` (R65). -/
def bufRead (m : Memory) (w : Nat) : F32 :=
  readByte m (4 * w + 3) ++ readByte m (4 * w + 2) ++ readByte m (4 * w + 1) ++ readByte m (4 * w)

/-- `BufWrite(w, v)` = `MemWrite(4w, 4, v)` (R63, R65). -/
def bufWrite (m : Memory) (w : Nat) (v : F32) : Memory :=
  writeByte
    (writeByte
      (writeByte
        (writeByte m (4 * w) (v.extractLsb' 0 8))
        (4 * w + 1) (v.extractLsb' 8 8))
      (4 * w + 2) (v.extractLsb' 16 8))
    (4 * w + 3) (v.extractLsb' 24 8)

/-! ### Control state and parameter registers (R20, R22, R25) -/

/-- `busy` of a mode: in `UNINIT` it is `none` (R34). -/
def Mode.busy : Mode → Option Block
  | .uninit => none
  | .ready e => e.busy

/-- `busy` (R22). -/
def State.busy (s : State) : Option Block := s.mode.busy

/-- `P[id]`; ids above 11 name no register and are never read (R147). -/
def paramRead (ps : Vector F32 12) (id : BitVec 8) : F32 :=
  if h : id.toNat < 12 then ps[id.toNat] else 0#32

/-- `P[id] <- v`: all 32 bits, no clamping, no validation (R142, R144). -/
def paramWrite (ps : Vector F32 12) (id : BitVec 8) (v : F32) : Vector F32 12 :=
  if h : id.toNat < 12 then ps.set id.toNat v else ps

/-- Whether an id names no parameter (R93, R147). -/
def unknownId (id : BitVec 8) : Bool := decide (11 < id.toNat)

/-! ### Answering a command (R91, R233) -/

/-- Delivers a response word to the agent of a command. -/
def deliver (c : Call) (st : Status) (data : BitVec 32) (s : State) : State :=
  { s with observed := .response c (responseWord st data) :: s.observed }

/-- `respond(S, D)`: end the command being served with its response word (R13, R91). -/
def respond (st : Status) (data : BitVec 32) (s : State) : State := deliver s.port st data s

/-- `raise E`, the one operation by which a command takes an error: it changes no state and delivers
`STATUS = code(E)`, `DATA = 0` (R233). It saves nothing, changes no mode and transfers control nowhere
(R239), so there is nothing to return from (R240). -/
def raise (e : Status) (s : State) : State := respond e 0#32 s

/-! ### Who waits, and what the block owns (R74, R91, R245) -/

/-- Agent `a` has issued the `PROC` in progress and waits for its response: its next command is not begun
before that (R91, R245). -/
def State.waits (s : State) (a : Agent) : Bool :=
  match s.busy with
  | none => false
  | some b => b.call.agent == a

/-- The word `w` belongs to the block in progress (R74). -/
def State.owns (s : State) (w : Nat) : Bool :=
  match s.busy with
  | none => false
  | some b => decide (b.base.toNat ≤ w) && decide (w < b.base.toNat + 2 * b.count.toNat)

/-- The word `w` of `BUF` exists (R63). -/
def State.hasWord (s : State) (w : Nat) : Bool := decide (w < s.cfg.bufWords.toNat)

end Sys2Proof.Machine
end

