-- ==== Sys2Proof/Machine/DelayLine.lean ====
section
/-! DEFINITION. The delay line and its operations (40_delay_line.md), over one line and over the twelve. -/

namespace Sys2Proof.Machine

open Fp

/-- The free values that the operations of a frame draw: the bits of the NaN that the operation at a site
delivers (U2) and the value of the interpolated read at a site (U4). A component numbers its own
operations from 0; `Draws.shift` gives each use of a component sites of its own. -/
structure Draws where
  nan : Nat → NanBits
  read : Nat → F32

/-- The same free values, counted from site `n` on. -/
def Draws.shift (d : Draws) (n : Nat) : Draws :=
  { nan := fun k => d.nan (n + k), read := fun k => d.read (n + k) }

/-! ### Construction (R120, R121, R131) -/

/-- `length_i` of a line (R121). -/
def lineLength (sec : Decimal) (sr : BitVec 32) : Nat := roundTimes sec sr.toNat

/-- A length that `DL.INIT` rejects with `ConfigurationError`: `size ≤ 0` (R131). -/
def lengthRejected (length : Nat) : Bool := decide (length ≤ 1)

/-- `DL.INIT` of a length that is not rejected (R120). -/
def dlInit (length : Nat) : Line where
  cap := nextPow2 length
  size := length - 1
  mask := nextPow2 length - 1
  cur := 0
  buf := []

/-! ### The per-frame operations (R122 to R125) -/

/-- `DL.WRITE` (R122). -/
def dlWrite (l : Line) (v : F32) : Line := { l with buf := ramWrite l.buf l.cur v }

/-- The cell that the offset `k` names: `(cur − k) & mask` (R69). -/
def dlIndex (l : Line) (k : Int) : Nat := maskInt ((l.cur : Int) - k) l.mask

/-- `DL.READTAP` (R123). -/
def dlReadTap (l : Line) (k : Int) : F32 := ramRead l.buf (dlIndex l k)

/-- `DL.READFIXED` (R124). -/
def dlReadFixed (l : Line) : F32 := dlReadTap l l.size

/-- `DL.ADVANCE` (R125). -/
def dlAdvance (l : Line) : Line := { l with cur := (l.cur + 1) &&& l.mask }

/-! ### The interpolated read (R126, R127) -/

/-- `a` of `CUBIC` (R127). Sites 0 to 4. -/
def cubicA (d : Draws) (x0 x1 x2 x3 : F32) : F32 :=
  fmul (d.nan 4) (fadd (d.nan 3) (fsub (d.nan 2) (fmul (d.nan 1) three (fsub (d.nan 0) x1 x2)) x0) x3) half

/-- `b` of `CUBIC` (R127). Sites 5 to 10. -/
def cubicB (d : Draws) (x0 x1 x2 x3 : F32) : F32 :=
  fsub (d.nan 10) (fadd (d.nan 6) (fmul (d.nan 5) two x2) x0)
    (fmul (d.nan 9) (fadd (d.nan 8) (fmul (d.nan 7) five x1) x3) half)

/-- `c` of `CUBIC` (R127). Sites 11, 12. -/
def cubicC (d : Draws) (x0 x2 : F32) : F32 := fmul (d.nan 12) (fsub (d.nan 11) x2 x0) half

/-- `CUBIC`, in the nesting of R127. Sites 0 to 18. -/
def cubic (d : Draws) (x0 x1 x2 x3 f : F32) : F32 :=
  fadd (d.nan 18)
    (fmul (d.nan 17)
      (fadd (d.nan 16)
        (fmul (d.nan 15)
          (fadd (d.nan 14) (fmul (d.nan 13) (cubicA d x0 x1 x2 x3) f) (cubicB d x0 x1 x2 x3)) f)
        (cubicC d x0 x2)) f) x1

/-- The fraction `f` of an offset (R126). Site 19. -/
def interpFraction (d : Draws) (off : F32) : F32 := fsub (d.nan 19) off (u2fSigned (floor off))

/-- `DL.READINTERP` (R126). At a NaN or infinite offset it returns any value (U4, log entry 5). -/
def dlReadInterp (d : Draws) (l : Line) (off : F32) : F32 :=
  if isFinite off then
    let n := floor off
    cubic d (dlReadTap l (l.size + n - 1)) (dlReadTap l (l.size + n)) (dlReadTap l (l.size + n + 1))
      (dlReadTap l (l.size + n + 2)) (interpFraction d off)
  else d.read 0

/-! ### The twelve lines -/

/-- `DL.WRITE(LINE[i], v)`. -/
def lineWrite (ls : Vector Line 12) (i : Fin 12) (v : F32) : Vector Line 12 :=
  ls.set i.val (dlWrite (ls.get i) v)

/-- `DL.READFIXED(LINE[i])`. -/
def lineFixed (ls : Vector Line 12) (i : Fin 12) : F32 := dlReadFixed (ls.get i)

/-- `DL.ADVANCE` on every line (R216). -/
def advanceLines (ls : Vector Line 12) : Vector Line 12 := Vector.ofFn fun i => dlAdvance (ls.get i)

end Sys2Proof.Machine
end

