-- ==== Sys2Proof/Machine/PreDelay.lean ====
section
/-! DEFINITION. Frame steps 1 to 3: the mono sum, the pre-delay stage and the one-pole low-pass filter
(42_predelay_lowpass.md). -/

namespace Sys2Proof.Machine

open Fp

/-- `MONO` (R150): a plain sum, no scale factor. -/
def mono (q : NanBits) (inL inR : F32) : F32 := fadd q inL inR

/-- `PD.WRITE` (R151). -/
def pdWrite (e : Engine) (v : F32) : Engine := { e with preDelay := ramWrite e.preDelay e.pdW v }

/-- `PD.SAMPLES` (R152): the pre-delay in samples. A NaN counts as 0; the value is clamped to
`[0, pdLen]` and its fraction dropped. -/
def pdSamples (v : F32) (pdLen : Nat) : Nat :=
  if isNan v then 0
  else if le v posZero then 0
  else if ge v (u2f pdLen) then pdLen
  else truncNat v

/-- The cell that a pre-delay of `p` samples reads: `(pdW − p) mod pdLen` (R153). -/
def pdIndex (pdW pdLen p : Nat) : Nat := (((pdW : Int) - (p : Int)) % (pdLen : Int)).toNat

/-- `PD.READ` (R153). -/
def pdRead (e : Engine) (p : Nat) : F32 := ramRead e.preDelay (pdIndex e.pdW e.pdLen p)

/-- `PD.ADVANCE` (R156). -/
def pdAdvance (e : Engine) : Engine := { e with pdW := (e.pdW + 1) % e.pdLen }

/-- `LPF(s, k, u)` (R154): the new filter state, which is also the output. Sites 0 to 2. -/
def lpf (d : Draws) (s k u : F32) : F32 := fadd (d.nan 2) s (fmul (d.nan 1) k (fsub (d.nan 0) u s))

end Sys2Proof.Machine
end

