-- ==== Sys2Proof/Machine/Diffuser.lean ====
section
/-! DEFINITION. Frame step 4: the input diffuser chain over lines 0 to 3 (43_diffuser_chain.md). -/

namespace Sys2Proof.Machine

open Fp

/-- The lines and the carried value `pre` after a diffuser step (R160). -/
structure DiffuserStep where
  lines : Vector Line 12
  pre : F32

/-- Step 1 (R161). Sites 0, 1. -/
def diffuser1 (d : Draws) (fi lp1 : F32) (ls : Vector Line 12) : DiffuserStep :=
  let pre := fsub (d.nan 1) lp1 (fmul (d.nan 0) fi (lineFixed ls 0))
  { lines := lineWrite ls 0 pre, pre := pre }

/-- Step 2 (R162). Sites 2 to 4. -/
def diffuser2 (d : Draws) (fi : F32) (x : DiffuserStep) : DiffuserStep :=
  let pre := fadd (d.nan 4) (fmul (d.nan 3) fi (fsub (d.nan 2) x.pre (lineFixed x.lines 1)))
    (lineFixed x.lines 0)
  { lines := lineWrite x.lines 1 pre, pre := pre }

/-- Step 3 (R163). Sites 5 to 8. -/
def diffuser3 (d : Draws) (fi si : F32) (x : DiffuserStep) : DiffuserStep :=
  let pre := fsub (d.nan 8) (fadd (d.nan 6) (fmul (d.nan 5) fi x.pre) (lineFixed x.lines 1))
    (fmul (d.nan 7) si (lineFixed x.lines 2))
  { lines := lineWrite x.lines 2 pre, pre := pre }

/-- Step 4 (R164). Sites 9 to 11. -/
def diffuser4 (d : Draws) (si : F32) (x : DiffuserStep) : DiffuserStep :=
  let pre := fadd (d.nan 11) (fmul (d.nan 10) si (fsub (d.nan 9) x.pre (lineFixed x.lines 3)))
    (lineFixed x.lines 2)
  { lines := lineWrite x.lines 3 pre, pre := pre }

/-- Step 5: `split`, written to no line (R165). Sites 12, 13. -/
def diffuser5 (d : Draws) (si : F32) (x : DiffuserStep) : F32 :=
  fadd (d.nan 13) (fmul (d.nan 12) si x.pre) (lineFixed x.lines 3)

/-- The chain: the lines after its four writes, and `split` in the place of `pre`. -/
def diffuser (d : Draws) (fi si lp1 : F32) (ls : Vector Line 12) : DiffuserStep :=
  let x := diffuser4 d si (diffuser3 d fi si (diffuser2 d fi (diffuser1 d fi lp1 ls)))
  { lines := x.lines, pre := diffuser5 d si x }

end Sys2Proof.Machine
end

