-- ==== Sys2Proof/Machine/Mixer.lean ====
section
/-! DEFINITION. Frame steps 6 and 7: the fourteen taps, the wet sums and the output mix (45_tap_mixer.md). -/

namespace Sys2Proof.Machine

open Fp

/-- A tap offset (R190), held as a u32 (R27, D40, log entry 17). -/
def tapOffset (sec : Decimal) (sr : BitVec 32) : BitVec 32 := BitVec.ofNat 32 (roundTimes sec sr.toNat)

/-- `tv[t]` (R191). -/
def tapRead (cfg : Config) (e : Engine) (t : Fin 14) : F32 :=
  dlReadTap (e.lines.get (cfg.tapLine.get t)) (e.tapOff.get t).toNat

/-- The first term of a wet sum: the tap as it is, or with its sign bit flipped (R192). -/
def tapFirst (g : Sign) (v : F32) : F32 :=
  match g with
  | .plus => v
  | .minus => fneg v

/-- A later term of a wet sum: `fadd` or `fsub` (R192). -/
def tapTerm (q : NanBits) (g : Sign) (acc v : F32) : F32 :=
  match g with
  | .plus => fadd q acc v
  | .minus => fsub q acc v

/-- The wet sum of seven taps, in tap order from `t0` on (R192, R193). Sites 1 to 6. -/
def wetSum (d : Draws) (cfg : Config) (e : Engine) (t0 t1 t2 t3 t4 t5 t6 : Fin 14) : F32 :=
  let term (k : Nat) (t : Fin 14) (acc : F32) : F32 :=
    tapTerm (d.nan k) (cfg.tapSign.get t) acc (tapRead cfg e t)
  term 6 t6 (term 5 t5 (term 4 t4 (term 3 t3 (term 2 t2 (term 1 t1
    (tapFirst (cfg.tapSign.get t0) (tapRead cfg e t0)))))))

/-- `wetL` (R192). -/
def wetLeft (d : Draws) (cfg : Config) (e : Engine) : F32 := wetSum d cfg e 0 1 2 3 4 5 6

/-- `wetR` (R193). -/
def wetRight (d : Draws) (cfg : Config) (e : Engine) : F32 := wetSum d cfg e 7 8 9 10 11 12 13

/-- `we`: the wet gain (R194). -/
def wetGain (q : NanBits) (wet : F32) : F32 := fmul q wet wetScale

/-- An output sample (R194): `dry·dryGain + wet·(wetGain·0.6)`. Sites 0 to 2. -/
def outputMix (d : Draws) (input dry wetSample we : F32) : F32 :=
  fadd (d.nan 2) (fmul (d.nan 0) input dry) (fmul (d.nan 1) wetSample we)

end Sys2Proof.Machine
end

