-- ==== Sys2Proof/Machine/Tank.lean ====
section
/-! DEFINITION. Frame step 5: the reverberation tank, its LFO and the phase advance (44_tank.md). -/

namespace Sys2Proof.Machine

open Fp

/-! ### The excursion LFO (R171, R172, R184) -/

/-- `ed`: the excursion depth in samples (R171). Sites 0, 1. -/
def excursionDepth (d : Draws) (depth depthDiv : F32) (sr : BitVec 32) : F32 :=
  fdiv (d.nan 1) (fmul (d.nan 0) depth (u2f sr.toNat)) depthDiv

/-- The read offset of a loop: `ed · (1 + lfo)` (R172). Sites 0, 1. -/
def lfoOffset (d : Draws) (ed lfo : F32) : F32 := fmul (d.nan 1) ed (fadd (d.nan 0) one lfo)

/-- The phase advance (R184). The NaN that replaces an infinite sum is any quiet NaN (U2). Sites 0 to 3. -/
def phaseAdvance (d : Draws) (phase rate : F32) (sr : BitVec 32) : F32 :=
  let inc := fdiv (d.nan 0) rate (u2f sr.toNat)
  let ph := fadd (d.nan 1) phase inc
  if ge ph one then
    if isInf ph then quietNan (d.nan 3) else fsub (d.nan 2) ph (u2fSigned (floor ph))
  else ph

/-! ### A loop (R173 to R177; R178 to R182) -/

/-- The lines of a loop in the order of R24, and the other loop's last line, which feeds it. -/
structure LoopLines where
  first : Fin 12
  second : Fin 12
  third : Fin 12
  last : Fin 12
  cross : Fin 12

/-- The left loop: lines 4 to 7, fed by line 11 (R24, R173). -/
def leftLoop : LoopLines := { first := 4, second := 5, third := 6, last := 7, cross := 11 }

/-- The right loop: lines 8 to 11, fed by line 7 (R24, R178). -/
def rightLoop : LoopLines := { first := 8, second := 9, third := 10, last := 11, cross := 7 }

/-- The coefficients of the tank (R170). -/
structure TankCoefficients where
  dc : F32
  ft : F32
  st : F32
  dp : F32

/-- The lines and a temporary (or a filter state) after a step of a loop. -/
structure LoopStep where
  lines : Vector Line 12
  value : F32

/-- Injection into the first line (R173, R178): `value` is `t`. Sites 0 to 23. -/
def loopInject (d : Draws) (c : TankCoefficients) (r : LoopLines) (split exc : F32)
    (ls : Vector Line 12) : LoopStep :=
  let a1 := dlReadInterp d (ls.get r.first) exc
  let t := fadd (d.nan 23)
    (fadd (d.nan 21) split (fmul (d.nan 20) c.dc (lineFixed ls r.cross)))
    (fmul (d.nan 22) c.ft a1)
  { lines := lineWrite ls r.first t, value := t }

/-- The second line (R174, R179): the second read is made after the write. Sites 30 to 51. -/
def loopSecond (d : Draws) (c : TankCoefficients) (r : LoopLines) (exc : F32) (x : LoopStep) :
    Vector Line 12 :=
  let a2 := dlReadInterp (d.shift 30) (x.lines.get r.first) exc
  lineWrite x.lines r.second (fsub (d.nan 51) a2 (fmul (d.nan 50) c.ft x.value))

/-- Damping (R175, R180): the new filter state. Sites 60 to 62. -/
def loopDamp (d : Draws) (c : TankCoefficients) (r : LoopLines) (lp : F32) (ls : Vector Line 12) : F32 :=
  lpf (d.shift 60) lp c.dp (lineFixed ls r.second)

/-- The second allpass, third line (R176, R181): `value` is `t2`. Sites 63 to 65. -/
def loopThird (d : Draws) (c : TankCoefficients) (r : LoopLines) (lp : F32) (ls : Vector Line 12) :
    LoopStep :=
  let t2 := fsub (d.nan 65) (fmul (d.nan 63) c.dc lp) (fmul (d.nan 64) c.st (lineFixed ls r.third))
  { lines := lineWrite ls r.third t2, value := t2 }

/-- The last line (R177, R182). Sites 66, 67. -/
def loopLast (d : Draws) (c : TankCoefficients) (r : LoopLines) (x : LoopStep) : Vector Line 12 :=
  lineWrite x.lines r.last
    (fadd (d.nan 67) (lineFixed x.lines r.third) (fmul (d.nan 66) c.st x.value))

/-- One pass of a loop: the lines after its four writes, and its filter state in `value`. -/
def loopPass (d : Draws) (c : TankCoefficients) (r : LoopLines) (split exc lp : F32)
    (ls : Vector Line 12) : LoopStep :=
  let ls2 := loopSecond d c r exc (loopInject d c r split exc ls)
  let lp' := loopDamp d c r lp ls2
  { lines := loopLast d c r (loopThird d c r lp' ls2), value := lp' }

end Sys2Proof.Machine
end

