-- ==== Sys2Proof/Machine/Frame.lean ====
section
/-! DEFINITION. One frame of the wired schedule (46_orchestration.md R214 to R218), from the two input
samples to the two output samples. -/

namespace Sys2Proof.Machine

open Fp

/-- The parameter snapshot `ps` of a frame (R214): a temporary, copied once and read by every rule of the
frame. -/
structure Snapshot where
  values : Vector F32 12

/-- `SNAPSHOT` (R214). -/
def snapshot (e : Engine) : Snapshot := { values := e.params }

/-- `ps[k]`. -/
def Snapshot.param (ps : Snapshot) (p : Param) : F32 := ps.values.get p.id

/-- The coefficients of the tank (R170, R214). Site 0. -/
def tankCoefficients (d : Draws) (ps : Snapshot) : TankCoefficients where
  dc := ps.param .decay
  ft := ps.param .decayDiffusion1
  st := ps.param .decayDiffusion2
  dp := fsub (d.nan 0) one (ps.param .damping)

/-- The two read offsets of the tank. -/
structure Excursion where
  left : F32
  right : F32

/-- `ed`, `excL` and `excR` (R171, R172). Sites 0 to 5. -/
def excursion (d : Draws) (cfg : Config) (ps : Snapshot) (sr : BitVec 32) (phase : F32) : Excursion :=
  let ed := excursionDepth d (ps.param .excursionDepth) cfg.depthDiv sr
  { left := lfoOffset (d.shift 2) ed (cos2pi phase)
    right := lfoOffset (d.shift 4) ed (sin2pi phase) }

/-- Steps 1 to 3: mono sum, pre-delay, bandwidth filter (R150 to R153, R155). Sites 0 to 3. -/
def frameInput (d : Draws) (ps : Snapshot) (e : Engine) (inL inR : F32) : Engine :=
  let e := pdWrite e (mono (d.nan 0) inL inR)
  let x := pdRead e (pdSamples (ps.param .preDelay) e.pdLen)
  { e with lp1 := lpf (d.shift 1) e.lp1 (ps.param .bandwidth) x }

/-- Steps 4 and 5: diffuser, LFO, left loop, right loop (R161 to R165, R171 to R182). Sites 0 to 299. -/
def frameTank (d : Draws) (cfg : Config) (ps : Snapshot) (e : Engine) : Engine :=
  let x := diffuser d (ps.param .inputDiffusion1) (ps.param .inputDiffusion2) e.lp1 e.lines
  let c := tankCoefficients (d.shift 20) ps
  let exc := excursion (d.shift 30) cfg ps e.sampleRate e.phase
  let left := loopPass (d.shift 100) c leftLoop x.pre exc.left e.lp2 x.lines
  let right := loopPass (d.shift 200) c rightLoop x.pre exc.right e.lp3 left.lines
  { e with lines := right.lines, lp2 := left.value, lp3 := right.value }

/-- The two output samples of a frame. -/
structure Stereo where
  left : F32
  right : F32
deriving DecidableEq, Repr

/-- Steps 6 and 7: taps, wet sums, output mix (R191 to R194). Sites 0 to 49. -/
def frameOutput (d : Draws) (cfg : Config) (ps : Snapshot) (e : Engine) (inL inR : F32) : Stereo :=
  let we := wetGain (d.nan 40) (ps.param .wet)
  let dry := ps.param .dry
  { left := outputMix (d.shift 30) inL dry (wetLeft d cfg e) we
    right := outputMix (d.shift 33) inR dry (wetRight (d.shift 10) cfg e) we }

/-- Step 8: the phase, pre-delay and line advances (R184, R156, R125, R216). Sites 0 to 3. -/
def frameAdvance (d : Draws) (ps : Snapshot) (e : Engine) : Engine :=
  pdAdvance { e with
    phase := phaseAdvance d e.phase (ps.param .excursionRate) e.sampleRate
    lines := advanceLines e.lines }

/-- The engine and the output samples after a frame. -/
structure FrameResult where
  engine : Engine
  out : Stereo
deriving DecidableEq, Repr

/-- `FRAME` (R215), from the samples read in step 1 to the samples written in step 7. Nothing in it can
raise an error, stop or skip (R217). Sites: input 0 to 9, tank 10 to 399, output 400 to 449, advance 450
to 459. -/
def frame (d : Draws) (cfg : Config) (e : Engine) (inL inR : F32) : FrameResult :=
  let ps := snapshot e
  let e5 := frameTank (d.shift 10) cfg ps (frameInput d ps e inL inR)
  { engine := frameAdvance (d.shift 450) ps e5
    out := frameOutput (d.shift 400) cfg ps e5 inL inR }

/-- The free values of the `n`-th frame that runs (log entries 4, 5, 14). -/
def frameDraws (n : Nat) : Draws := { nan := Config.freeNan n, read := Config.freeRead n }

end Sys2Proof.Machine
end

