-- ==== Sys2Proof/Machine/Orchestration.lean ====
section
/-! DEFINITION. The commands of the render side, `INIT` and `PROC`, and the step that runs one frame of a
block (46_orchestration.md). -/

namespace Sys2Proof.Machine

/-! ### INIT (R200 to R202) -/

/-- `CHECK(sr)` passes (R201): not 0, not above the supported maximum, and no line's length is rejected. -/
def checkRate (cfg : Config) (sr : BitVec 32) : Bool :=
  decide (sr ≠ 0#32) && decide (sr.toNat ≤ cfg.maxSampleRate.toNat)
    && decide (∀ i : Fin 12, lengthRejected (lineLength (cfg.lineSec.get i) sr) = false)

/-- `CONSTRUCT(sr)` (R202): the state of R35, in which nothing keeps an earlier value. -/
def construct (cfg : Config) (sr : BitVec 32) : Engine where
  sampleRate := sr
  params := paramDefaults
  lines := Vector.ofFn fun i => dlInit (lineLength (cfg.lineSec.get i) sr)
  tapOff := Vector.ofFn fun t => tapOffset (cfg.tapSec.get t) sr
  preDelay := []
  pdLen := sr.toNat
  pdW := 0
  lp1 := Fp.posZero
  lp2 := Fp.posZero
  lp3 := Fp.posZero
  phase := Fp.posZero
  busy := none

/-- `INIT sr` (R200): `StateError` while a block is in progress, then `ConfigurationError` (R231), before any
write; otherwise the engine is built anew, whatever stood there before (R263). -/
def execInit (sr : BitVec 32) (s : State) : Host.Outcome State Fault Refusal :=
  match s.busy with
  | some _ => .next (raise .stateError s)
  | none =>
    if checkRate s.cfg sr then
      .next (respond .ok 0#32 { s with mode := .ready (construct s.cfg sr) })
    else .next (raise .configurationError s)

/-! ### PROC (R210 to R213) -/

/-- The range of a block lies in `BUF`, computed without wrap-around (R213). -/
def rangeOk (cfg : Config) (base : BitVec 32) (count : BitVec 16) : Bool :=
  decide (base.toNat + 2 * count.toNat ≤ cfg.bufWords.toNat)

/-- `busy <- {base, count, i}` (R210, R211). -/
def acceptBlock (e : Engine) (b : Block) (s : State) : State :=
  { s with mode := .ready { e with busy := some b } }

/-- `PROC base, count` (R210): `StateError` in `UNINIT` or while a block is in progress; `COUNT = 0` answers at
once and `base` is not examined (R212); a range outside `BUF` is a fault (R213, U5); otherwise the block is
accepted, and its frames are the steps of `runFrame` (R211, R276, log entry 8). -/
def execProc (count : BitVec 16) (base : BitVec 32) (s : State) : Host.Outcome State Fault Refusal :=
  match s.mode with
  | .uninit => .next (raise .stateError s)
  | .ready e =>
    match e.busy with
    | some _ => .next (raise .stateError s)
    | none =>
      if count = 0#16 then .next (respond .ok 0#32 s)
      else if rangeOk s.cfg base count then
        .next (acceptBlock e { base := base, count := count, i := 0#16, call := s.port } s)
      else .fault .blockOutsideBuf

/-! ### RUN (R211) -/

/-- The words of `BUF` that hold frame `i` of a block: left, then right (R22, R64). -/
def leftWord (b : Block) : Nat := b.base.toNat + 2 * b.i.toNat
def rightWord (b : Block) : Nat := b.base.toNat + 2 * b.i.toNat + 1

/-- The end of a block: `busy <- none` and the response to the agent that issued the `PROC` (R210). -/
def finishBlock (e : Engine) (b : Block) (s : State) : State :=
  deliver b.call .ok 0#32 { s with mode := .ready { e with busy := none } }

/-- After a frame: `busy.i <- busy.i + 1`, and the end of the block when that reaches `count` (R22, R211). -/
def afterFrame (e : Engine) (b : Block) (s : State) : State :=
  if b.count.toNat ≤ b.i.toNat + 1 then finishBlock e b s
  else acceptBlock e { b with i := b.i + 1#16 } s

/-- `FRAME(base, i)` on the words of the block, read before they are written, left before right (R194, R215). -/
def blockFrame (e : Engine) (b : Block) (s : State) : State :=
  let r := frame (frameDraws s.draws) s.cfg e (bufRead s.buf (leftWord b)) (bufRead s.buf (rightWord b))
  afterFrame r.engine b
    { s with
      buf := bufWrite (bufWrite s.buf (leftWord b) r.out.left) (rightWord b) r.out.right
      draws := s.draws + 1 }

/-- The datapath's turn: the next frame of the block in progress (R211). With no block in progress the state
is held (R248); a block with no frame left ends. -/
def runFrame (s : State) : Host.Outcome State Fault Refusal :=
  match s.mode with
  | .uninit => .next s
  | .ready e =>
    match e.busy with
    | none => .next s
    | some b =>
      if b.count.toNat ≤ b.i.toNat then .next (finishBlock e b s)
      else if s.hasWord (rightWord b) then .next (blockFrame e b s)
      else .fault .noSuchWord

end Sys2Proof.Machine
end

