-- ==== Sys2Proof/Machine/ParameterStore.lean ====
section
/-! DEFINITION. The commands of the parameter store: `SETP` and `GETP` (41_parameter_store.md). -/

namespace Sys2Proof.Machine

/-- `SETP id, value` (R142): `StateError` in `UNINIT`, `ParameterError` for an unknown id (R147), in that order
(R238); otherwise the 32 bits are stored unchanged. Accepted while a block is in progress (R73). -/
def execSetp (id : BitVec 8) (value : F32) (s : State) : Host.Outcome State Fault Refusal :=
  match s.mode with
  | .uninit => .next (raise .stateError s)
  | .ready e =>
    if unknownId id then .next (raise .parameterError s)
    else .next (respond .ok 0#32
      { s with mode := .ready { e with params := paramWrite e.params id value } })

/-- `GETP id` (R143): the same tests; otherwise the response carries the register's bits and nothing changes. -/
def execGetp (id : BitVec 8) (s : State) : Host.Outcome State Fault Refusal :=
  match s.mode with
  | .uninit => .next (raise .stateError s)
  | .ready e =>
    if unknownId id then .next (raise .parameterError s)
    else .next (respond .ok (paramRead e.params id) s)

end Sys2Proof.Machine
end

