-- ==== Sys2Proof/Machine/Dispatch.lean ====
section
/-! DEFINITION. The meaning of each command: one arm per constructor of `Instr`. -/

namespace Sys2Proof.Machine

def exec (i : Instr) (s : State) : Host.Outcome State Fault Refusal :=
  match i with
  | .init sr => Sys2Proof.Machine.execInit sr s
  | .setp id value => Sys2Proof.Machine.execSetp id value s
  | .getp id => Sys2Proof.Machine.execGetp id s
  | .proc count base => Sys2Proof.Machine.execProc count base s

end Sys2Proof.Machine
end

