-- ==== Sys2Proof/Machine/Ports.lean ====
section
/-! DEFINITION. What reaches the block from outside (R245, R260, R275, R276): command words on the ports of
the two agents, host accesses to `BUF`, and the `RESET` event. -/

namespace Sys2Proof.Machine

/-- Serves a command word: the command it spells (R96), or `CommandError`, in `UNINIT` as in `READY`, busy or
not, before any other test (R97, R235, R238). -/
def serveWord (w : CommandWord) (s : State) : Host.Outcome State Fault Refusal :=
  match decode w with
  | .ok i => exec i s
  | .error _ => .next (raise .commandError s)

/-- Serves the command on an agent's port: its response will go to that agent (R91). -/
def serve (c : Call) (s : State) : Host.Outcome State Fault Refusal :=
  serveWord c.word { s with port := c }

/-- The `RESET` event (R260, R261): `mode = UNINIT`, `busy = none`; `BUF` and the configuration are not
touched; a block in progress gets no response. What is pending comes after the event. -/
def resetEvent (s : State) : State := { s with mode := .uninit }

/-- A host write of a word of `BUF` (R60, R74): the word must exist, and must not belong to a block in
progress (U6). -/
def hostWrite (word : BitVec 32) (value : F32) (s : State) : Host.Outcome State Fault Refusal :=
  if s.hasWord word.toNat = false then .fault .noSuchWord
  else if s.owns word.toNat then .fault .hostTouchedBlock
  else .next { s with buf := bufWrite s.buf word.toNat value }

/-- A host read of a word of `BUF` (R60, R74, R275): no side effect (R67). -/
def hostRead (word : BitVec 32) (s : State) : Host.Outcome State Fault Refusal :=
  if s.hasWord word.toNat = false then .fault .noSuchWord
  else if s.owns word.toNat then .fault .hostTouchedBlock
  else .next { s with observed := .bufWord word (bufRead s.buf word.toNat) :: s.observed }

/-- Takes the first pending event. An agent that waits for a response has not issued its next command yet:
until the block has answered, the datapath has the turn and the event stays pending (R91, R245). -/
def takeEvent (ev : Event) (rest : List Event) (s : State) : Host.Outcome State Fault Refusal :=
  match ev with
  | .command c => if s.waits c.agent then runFrame s else serve c { s with pending := rest }
  | .frame => runFrame { s with pending := rest }
  | .hostWrite word value => hostWrite word value { s with pending := rest }
  | .hostRead word => hostRead word { s with pending := rest }
  | .reset => .next (resetEvent { s with pending := rest })

/-- The agent on whose port a word is placed so that the next step serves it: agent R, or agent C where agent
R waits for a response. -/
def freeAgent (s : State) : Agent := if s.waits .render then .control else .render

/-- The command word of an instruction whose bits are `w`, those from `nbits` up being zero. -/
def tableWord (nbits w : Nat) : CommandWord := BitVec.ofNat 64 (w % 2 ^ nbits)

end Sys2Proof.Machine
end

