-- ==== Sys2Proof/Machine/Step.lean ====
section
/-! DEFINITION. One step of the machine (R276). The block fetches no instructions (R21, R77): what it does
next is the next thing that reaches it, and between two of these the next frame of the block in progress. -/

namespace Sys2Proof.Machine

/-- One step: the first pending event is taken; with none pending, the block in progress runs its next frame,
and with no block in progress the state is held (R211, R248, R276; log entries 7, 16). -/
def step (s : State) : Host.Outcome State Fault Refusal :=
  match s.pending with
  | [] => runFrame s
  | ev :: rest => takeEvent ev rest s

/-- `s` with a command word on the port of an agent that is not waiting, before everything else pending: the
very next step serves it. -/
def State.withFetchWord (s : State) (nbits w : Nat) : State :=
  { s with pending := .command { agent := freeAgent s, word := tableWord nbits w } :: s.pending }

end Sys2Proof.Machine
end

