-- ==== Sys2Proof/Machine/Assembler.lean ====
section
/-! DEFINITION. The assembler (R100, R101): a line read from its characters, and the events it stands for. There
are no pseudo-instructions (R106): a line is one command word, or the host's words of a `.buf` line. What R100
leaves open is log entries 24 (the characters), 25 (a line after a `PROC` line) and 26 (the words of a `.buf`
line). -/

namespace Sys2Proof.Machine

/-- `<value>`: a decimal literal, or the bits in hex (R100). -/
inductive Value where
  | decimal (neg : Bool) (d : Decimal)
  | bits (v : F32)
deriving DecidableEq, Repr

/-- `<param>`: a name of R99 or a decimal id (R100). -/
inductive ParamOperand where
  | name (p : Param)
  | number (n : Nat)
deriving DecidableEq, Repr

/-- A line (R100). -/
inductive AsmLine where
  | init (sr : Nat)
  | setp (p : ParamOperand) (v : Value)
  | getp (p : ParamOperand)
  | proc (base count : Nat)
  | buf (w : Nat) (vs : List Value)
deriving DecidableEq, Repr

/-- The 32 bits of a value: a decimal literal is rounded to the nearest binary32, ties to even (R100). -/
def valueBits : Value → F32
  | .decimal neg d => literal neg d
  | .bits v => v

/-- The id of a parameter operand; a number above 255 does not assemble (R100). -/
def paramNumber : ParamOperand → Option (BitVec 8)
  | .name p => some (BitVec.ofNat 8 p.id.val)
  | .number n => if n < 2 ^ 8 then some (BitVec.ofNat 8 n) else none

/-- The command of a line; an operand out of its range does not assemble, and a `.buf` line is no command
(R100). -/
def assembleCommand : AsmLine → Option Instr
  | .init sr => if sr < 2 ^ 32 then some (.init (BitVec.ofNat 32 sr)) else none
  | .setp p v => (paramNumber p).map fun id => .setp id (valueBits v)
  | .getp p => (paramNumber p).map fun id => .getp id
  | .proc base count =>
    if base < 2 ^ 32 ∧ count < 2 ^ 16 then
      some (.proc (BitVec.ofNat 16 count) (BitVec.ofNat 32 base))
    else none
  | .buf _ _ => none

/-- The agent that issues a command (R245). -/
def issuer : Instr → Agent
  | .init _ => .render
  | .setp _ _ => .control
  | .getp _ => .control
  | .proc _ _ => .render

/-- The host's writes of a `.buf` line: the values in words `w`, `w + 1`, ... (R100). -/
def bufEvents : Nat → List Value → List Event
  | _, [] => []
  | w, v :: vs => .hostWrite (BitVec.ofNat 32 w) (valueBits v) :: bufEvents (w + 1) vs

/-- The events a line stands for. DESIGN CHOICE (log entry 26): R100 gives the `<w>` of a `.buf` line no range. Here a
line whose last word is below 2^32 assembles, also where words lie beyond `BUF` (their host writes then end in
the fault `noSuchWord`), and a line that passes word 2^32 − 1 does not assemble. -/
def assembleLine (l : AsmLine) : Option (List Event) :=
  match l with
  | .buf w vs => if w + vs.length ≤ 2 ^ 32 then some (bufEvents w vs) else none
  | _ => (assembleCommand l).map fun i => [.command { agent := issuer i, word := encode i }]

/-- The events of a program, in the order of its lines, with no turn of the datapath between them. DESIGN CHOICE
(log entry 25): R100 says of a `.buf` line only that it stands before the next command, and no rule says
where a line after a `PROC` line falls; here the next command of the other agent and the host's writes are
served before the frames of the `PROC`, and the next command of its own agent after its response. -/
def assemble : List AsmLine → Option (List Event)
  | [] => some []
  | l :: ls =>
    match assembleLine l, assemble ls with
    | some es, some fs => some (es ++ fs)
    | _, _ => none

/-! ### Lines as characters (R100) -/

/-- The characters before the first `;`, which starts a comment. -/
def withoutComment (cs : List Char) : List Char := cs.takeWhile (· != ';')

/-- The characters without the spaces around them. -/
def trimmed (cs : List Char) : List Char :=
  ((cs.dropWhile (· == ' ')).reverse.dropWhile (· == ' ')).reverse

/-- The pieces between the separators `c`. -/
def pieces (c : Char) : List Char → List (List Char)
  | [] => [[]]
  | x :: xs =>
    match pieces c xs with
    | [] => [[]]
    | p :: ps => if x = c then [] :: p :: ps else (x :: p) :: ps

/-- The value of a digit in a base of at most 16; hex digits may be capital or small. -/
def digitValue (base : Nat) (c : Char) : Option Nat :=
  let n := c.toNat
  let v :=
    if 48 ≤ n ∧ n ≤ 57 then n - 48
    else if 65 ≤ n ∧ n ≤ 70 then n - 55
    else if 97 ≤ n ∧ n ≤ 102 then n - 87
    else 16
  if v < base then some v else none

/-- Digits read on from an accumulator. -/
def readDigits (base : Nat) : List Char → Nat → Option Nat
  | [], acc => some acc
  | c :: cs, acc => (digitValue base c).bind fun v => readDigits base cs (base * acc + v)

/-- An unsigned number: at least one digit, and nothing but digits. -/
def readNumber (base : Nat) (cs : List Char) : Option Nat :=
  if cs = [] then none else readDigits base cs 0

/-- A decimal literal without its sign: digits, or digits, a point and digits. -/
def readDecimal (cs : List Char) : Option Decimal :=
  match pieces '.' cs with
  | [whole] => (readNumber 10 whole).map fun n => ⟨n, 0⟩
  | [whole, frac] =>
    if whole = [] ∨ frac = [] then none
    else (readNumber 10 (whole ++ frac)).map fun n => ⟨n, frac.length⟩
  | _ => none

/-- `<value>`: `0x` and eight hex digits, or a decimal literal with or without a minus sign. -/
def readValue : List Char → Option Value
  | '0' :: 'x' :: hex =>
    if hex.length = 8 then (readNumber 16 hex).map fun n => .bits (BitVec.ofNat 32 n) else none
  | '-' :: cs => (readDecimal cs).map (.decimal true)
  | cs => (readDecimal cs).map (.decimal false)

/-- The names of R99, in the order of the ids. -/
def paramNames : List (List Char × Param) :=
  [ ("pre_delay".toList, .preDelay), ("bandwidth".toList, .bandwidth),
    ("input_diffusion_1".toList, .inputDiffusion1), ("input_diffusion_2".toList, .inputDiffusion2),
    ("decay".toList, .decay), ("decay_diffusion_1".toList, .decayDiffusion1),
    ("decay_diffusion_2".toList, .decayDiffusion2), ("damping".toList, .damping),
    ("excursion_rate".toList, .excursionRate), ("excursion_depth".toList, .excursionDepth),
    ("wet".toList, .wet), ("dry".toList, .dry) ]

/-- `<param>`: a name of R99 or a decimal id. -/
def readParam (cs : List Char) : Option ParamOperand :=
  match paramNames.find? (fun p => p.1 == cs) with
  | some (_, p) => some (.name p)
  | none => (readNumber 10 cs).map .number

/-- The values of a `.buf` line. -/
def readValues : List (List Char) → Option (List Value)
  | [] => some []
  | c :: cs => (readValue (trimmed c)).bind fun v => (readValues cs).map fun vs => v :: vs

/-- The rest of a line after its first word, by that word. -/
def readOperands (word rest : List Char) : Option AsmLine :=
  let ops := (pieces ',' rest).map trimmed
  if word = "INIT".toList then
    match ops with
    | [sr] => (readNumber 10 sr).map .init
    | _ => none
  else if word = "SETP".toList then
    match ops with
    | [p, v] => (readParam p).bind fun p => (readValue v).map fun v => .setp p v
    | _ => none
  else if word = "GETP".toList then
    match ops with
    | [p] => (readParam p).map .getp
    | _ => none
  else if word = "PROC".toList then
    match ops with
    | [base, count] => (readNumber 10 base).bind fun b => (readNumber 10 count).map fun c => .proc b c
    | _ => none
  else if word = ".buf".toList then
    match pieces ':' rest with
    | [w, vs] =>
      (readNumber 10 (trimmed w)).bind fun w => (readValues (pieces ',' vs)).map fun vs => .buf w vs
    | _ => none
  else none

/-- A line of text; one that holds nothing but a comment stands for no line. -/
def readLine (cs : List Char) : Option (List AsmLine) :=
  let body := trimmed (withoutComment cs)
  if body = [] then some []
  else (readOperands (body.takeWhile (· != ' ')) (body.dropWhile (· != ' '))).map fun l => [l]

/-- The lines of a text. -/
def readLines : List (List Char) → Option (List AsmLine)
  | [] => some []
  | c :: cs => (readLine c).bind fun l => (readLines cs).map fun ls => l ++ ls

/-- The events of a program's text. -/
def assembleText (cs : List Char) : Option (List Event) := (readLines (pieces '\n' cs)).bind assemble

end Sys2Proof.Machine
end

