-- ==== Sys2Proof/Safety.lean ====
section
/-! DEFINITION. The invariants of the machine (R23, R29, R36, R129) and what claims call a safe step, a run and
a silent engine. -/

namespace Sys2Proof.Machine

/-! ### The invariant of every reachable state -/

/-- A delay line is as R129 says, and its RAM is in canonical form. -/
structure Line.Ok (l : Line) : Prop where
  size_pos : 1 ≤ l.size
  cap_eq : l.cap = nextPow2 (l.size + 1)
  mask_eq : l.mask = l.cap - 1
  cur_lt : l.cur < l.cap
  buf_wf : cellsWf l.cap l.buf

/-- A block in progress has a frame left and lies in `BUF` (R22, R213). -/
structure Block.Ok (cfg : Config) (b : Block) : Prop where
  i_lt : b.i.toNat < b.count.toNat
  range : rangeOk cfg b.base b.count = true

/-- An engine is as `INIT` built it and the frames since have kept it (R35, R36): the rate passed `CHECK`, every
line has the length its table entry gives, the offsets and the pre-delay length are those of the rate. -/
structure Engine.Ok (cfg : Config) (e : Engine) : Prop where
  rate : checkRate cfg e.sampleRate = true
  line_ok : ∀ i, (e.lines.get i).Ok
  line_size : ∀ i, (e.lines.get i).size + 1 = lineLength (cfg.lineSec.get i) e.sampleRate
  tap_off : ∀ t, e.tapOff.get t = tapOffset (cfg.tapSec.get t) e.sampleRate
  pd_len : e.pdLen = e.sampleRate.toNat
  pd_cursor : e.pdW < e.pdLen
  pd_wf : cellsWf e.pdLen e.preDelay
  block_ok : ∀ b, e.busy = some b → b.Ok cfg

/-- The invariant: `BUF` is in canonical form, and in `READY` the engine is as it should be. -/
structure State.Inv (s : State) : Prop where
  buf_wf : Memory.wf s.cfg.bufWords.toNat s.buf
  engine_ok : ∀ e, s.mode = .ready e → e.Ok s.cfg

/-- All cursors have advanced the same number of times `F` (R36): `LINE[i].cur = F mod cap`,
`pdW = F mod pdLen`. -/
def Engine.InStep (e : Engine) (F : Nat) : Prop :=
  e.pdW = F % e.pdLen ∧ ∀ i, (e.lines.get i).cur = F % (e.lines.get i).cap

/-! ### The vocabulary of claims -/

/-- The value is in the half-open interval [0, 1) (R29). -/
def inUnit (x : F32) : Prop := Fp.ge x Fp.posZero = true ∧ Fp.lt x Fp.one = true

/-- An offset keeps its meaning "delay of `size + off` frames": none of the four cells of the interpolated read
aliases (R130, R267 (c)). -/
def noAlias (l : Line) (off : F32) : Prop :=
  1 ≤ (l.size : Int) + Fp.floor off - 1 ∧ (l.size : Int) + Fp.floor off + 2 ≤ (l.mask : Int)

/-- Every sample the engine stores is a zero of either sign: "silent history" (R194, R271). -/
structure Engine.Silent (e : Engine) : Prop where
  lines : ∀ i j, Fp.isZero (ramRead (e.lines.get i).buf j) = true
  preDelay : ∀ j, Fp.isZero (ramRead e.preDelay j) = true
  lp1 : Fp.isZero e.lp1 = true
  lp2 : Fp.isZero e.lp2 = true
  lp3 : Fp.isZero e.lp3 = true

/-- `k` steps of the machine. -/
def run (k : Nat) (s : State) : Host.Outcome State Fault Refusal := Sys2Proof.core.run k s

/-- The events that a run from `s` to `t` took, oldest first: what is pending loses events at its front only
(Laws: `run_taken`), and a frame may take none. -/
def taken (s t : State) : List Event := s.pending.take (s.pending.length - t.pending.length)

/-- A line after frames in which the samples `vs` were written, oldest first: one write and one advance a frame
(R122, R125). -/
def lineFrames (l : Line) (vs : List F32) : Line := vs.foldl (fun m v => dlAdvance (dlWrite m v)) l

/-- The pre-delay stage after frames whose mono sums were `vs`, oldest first (R151, R156). -/
def pdFrames (e : Engine) (vs : List F32) : Engine := vs.foldl (fun x v => pdAdvance (pdWrite x v)) e

/-- The sample of frame `j` of the samples `vs`, and `+0.0` for a frame before the first (R70). -/
def sampleOf (vs : List F32) (j : Int) : F32 := if j < 0 then Fp.posZero else vs.getD j.toNat Fp.posZero

/-- No event that could change parameter `id`: no `SETP` to it, no `INIT`, no `RESET` (R146). -/
def LeavesParam (id : BitVec 8) (ev : Event) : Prop :=
  ev ≠ .reset ∧ ∀ c, ev = .command c →
    (∀ sr, decode c.word ≠ .ok (.init sr)) ∧ ∀ v, decode c.word ≠ .ok (.setp id v)

/-- The command is answered with this response word and changes nothing else (R233). -/
def AnswersOnly (i : Instr) (s : State) (rw : ResponseWord) : Prop :=
  exec i s = .next { s with observed := .response s.port rw :: s.observed }

/-- The word `w` belongs to the block in progress: from the acceptance of `PROC base, count` to its response, the
words `base .. base + 2·count − 1` (R74). -/
def BlockHolds (s : State) (w : Nat) : Prop :=
  ∃ e b, s.mode = .ready e ∧ e.busy = some b ∧ b.base.toNat ≤ w ∧ w < b.base.toNat + 2 * b.count.toNat

/-- The byte at address `a` of `BUF` is not in the range of a block (R74). -/
def OutsideBlock (a : Nat) (base : BitVec 32) (count : BitVec 16) : Prop :=
  a < 4 * base.toNat ∨ 4 * (base.toNat + 2 * count.toNat) ≤ a

/-- An event that has no business with the byte at address `a`: no host write of its word, and no `PROC` whose
range holds it. -/
def LeavesByte (a : Nat) (ev : Event) : Prop :=
  (∀ w v, ev = .hostWrite w v → a < 4 * w.toNat ∨ 4 * w.toNat + 4 ≤ a) ∧
  ∀ c, ev = .command c → ∀ count base, decode c.word = .ok (.proc count base) → OutsideBlock a base count

/-- The step gives the datapath its turn while the block `b` runs (log entry 7): nothing is pending, or the turn
is the first pending event, or the first is a command of the agent that waits for the block's response.
`rest` is what is pending after the step. -/
def DatapathTurn (s : State) (b : Block) (rest : List Event) : Prop :=
  (s.pending = [] ∧ rest = []) ∨ s.pending = .frame :: rest ∨
  ∃ c more, s.pending = .command c :: more ∧ c.agent = b.call.agent ∧ rest = s.pending

/-- What stays pending while a block of agent `ag` runs with no other event: nothing, or the next command of that
agent and what follows it (R91, R245). -/
def WaitsBehind (ag : Agent) (rest : List Event) : Prop :=
  rest = [] ∨ ∃ c more, rest = .command c :: more ∧ c.agent = ag

/-- `excursion_rate / SR` is finite and not negative (R29). -/
def Engine.RateInDomain (e : Engine) : Prop :=
  ∀ q, Fp.isFinite (Fp.fdiv q (e.params.get 8) (Fp.u2f e.sampleRate.toNat)) = true ∧
    Fp.ge (Fp.fdiv q (e.params.get 8) (Fp.u2f e.sampleRate.toNat)) Fp.posZero = true

/-- The next step serves no `INIT` (R30, R129, R269: what only `INIT` changes): none is pending first, unless its
agent waits for a response, so that the step serves no command (R245). -/
def NoInitNext (s : State) : Prop :=
  ∀ c rest sr, s.pending = .command c :: rest → s.waits c.agent = false → decode c.word ≠ .ok (.init sr)

/-- The infinity with this sign. -/
def InfOf (r : F32) (neg : Bool) : Prop := Fp.isInf r = true ∧ Fp.sign r = neg

/-- The zero with this sign. -/
def ZeroOf (r : F32) (neg : Bool) : Prop := Fp.isZero r = true ∧ Fp.sign r = neg

/-- `r` is the binary32 nearest to `num / den` units of 2^-149, ties to even, with the sign of `num`; it is an
infinity exactly when rounding overflows, from half a unit in the last place above the largest finite value
on (R14: "rounded once to binary32 with roundTiesToEven"). -/
def Nearest (r : F32) (num : Int) (den : Nat) : Prop :=
  Fp.isNan r = false ∧ (num < 0 → Fp.sign r = true) ∧ (0 < num → Fp.sign r = false) ∧
  (Fp.isInf r = true ↔ (2 ^ 25 - 1) * 2 ^ 252 * den ≤ num.natAbs) ∧
  (Fp.isFinite r = true → ∀ x, Fp.isFinite x = true →
    (Fp.units r * den - num).natAbs ≤ (Fp.units x * den - num).natAbs ∧
    ((Fp.units r * den - num).natAbs = (Fp.units x * den - num).natAbs →
      Fp.units x = Fp.units r ∨ Fp.mag r % 2 = 0))

end Sys2Proof.Machine
end

