-- ==== Sys2Proof/Certificates/Slice0/Obligations.lean ====
section
/-! DEFINITION. The statements for the provers. Each is about the machine, not about a program. A statement
over a configuration holds for every one: the configuration is a field of State (log entry 2). The fields
`pending`, `port`, `observed` and `draws` are the model's own (log entries 7, 14, 15): through them a
statement says which command is served, what is answered and which free values a frame draws; none rests
on a value that these fields have after reset. -/

open Sys2Proof Sys2Proof.Machine

/-! ### Encoding (30_encoding.md) -/

/-- R96, R101: the word of a command decodes to the command, for every operand value. -/
def Obligations.DecodeEncodeRoundTrip : Prop :=
  ∀ i : Instr, i.wf = true ∧ decode (encode i) = .ok i

/-- R96: a word that spells a command is the word of that command; every word has one meaning. -/
def Obligations.EncodeInvertsDecode : Prop :=
  ∀ (w : CommandWord) (i : Instr), decode w = .ok i → encode i = w

/-- R96: "the four tests are mutually exclusive". -/
def Obligations.OpcodeTestsAreExclusive : Prop :=
  ∀ (w : CommandWord) (r r' : OpcodeRow), r ∈ opcodeRows → r' ∈ opcodeRows →
    w &&& r.mask = r.pattern → w &&& r'.mask = r'.pattern → r.pattern = r'.pattern

/-- R235: a word that passes none of the four tests is one with a reserved `OP` or a non-zero bit in a
must-be-zero field, and it is answered `CommandError`, in every state, with no other change. -/
def Obligations.MalformedWordAnswersCommandError : Prop :=
  ∀ (w : CommandWord),
    ((∀ r ∈ opcodeRows, w &&& r.mask ≠ r.pattern) ↔ (wordFields w).wf = false) ∧
    ((wordFields w).wf = false → ∀ s : State,
      serveWord w s = .next { s with observed := .response s.port 0x0400000000#40 :: s.observed })

/-- R101: a command's word is its four fields side by side, those it does not use zero; and the examples of
the rule, as text through the assembler of R100. -/
def Obligations.WordsOfTheExamples : Prop :=
  (∀ sr, encode (.init sr) = 0x01#8 ++ 0#8 ++ 0#16 ++ sr) ∧
  (∀ id v, encode (.setp id v) = 0x02#8 ++ id ++ 0#16 ++ v) ∧
  (∀ id, encode (.getp id) = 0x03#8 ++ id ++ 0#16 ++ 0#32) ∧
  (∀ count base, encode (.proc count base) = 0x04#8 ++ 0#8 ++ count ++ base) ∧
  assembleText ("INIT 48000\nSETP decay, 0.5\nSETP wet, 0.0\nSETP dry, 1.0\nGETP decay\nPROC 0, 4\n".toList ++
      "PROC 256, 128".toList) =
    some [.command ⟨.render, 0x010000000000BB80#64⟩, .command ⟨.control, 0x020400003F000000#64⟩,
      .command ⟨.control, 0x020A000000000000#64⟩, .command ⟨.control, 0x020B00003F800000#64⟩,
      .command ⟨.control, 0x0304000000000000#64⟩, .command ⟨.render, 0x0400000400000000#64⟩,
      .command ⟨.render, 0x0400008000000100#64⟩]

/-- R96: words of each row, written out from the pattern strings, decode to their commands. -/
def Obligations.WordsOfEachRowDecode : Prop :=
  decodeTableWord 64 0x01000000000003E8 = some (.init 1000#32) ∧
  decodeTableWord 64 0x020700003BA3D70A = some (.setp 7#8 0x3BA3D70A#32) ∧
  decodeTableWord 64 0x03FF000000000000 = some (.getp 255#8) ∧
  decodeTableWord 64 0x0400FFFF80000001 = some (.proc 65535#16 0x80000001#32) ∧
  decodeTableWord 64 0x0304000000000001 = none ∧ decodeTableWord 64 0x0401000100000000 = none

/-- R91, R98: where the status and the data stand in a response word, and the five codes. -/
def Obligations.ResponseWordLayout : Prop :=
  (∀ (st : Status) (data : BitVec 32),
    (responseWord st data).extractLsb' 32 8 = statusCode st ∧
    (responseWord st data).extractLsb' 0 32 = data) ∧
  statusCode .ok = 0#8 ∧ statusCode .configurationError = 1#8 ∧ statusCode .parameterError = 2#8 ∧
  statusCode .stateError = 3#8 ∧ statusCode .commandError = 4#8

/-! ### The parameter store (41_parameter_store.md) -/

/-- R142: `SETP` in its three cases. In the last, register `id` holds the 32 bits given, the eleven others and
everything else are as before, also while a block is in progress, and the answer is `OK`. -/
def Obligations.SetpWritesItsRegister : Prop :=
  ∀ (id : BitVec 8) (v : F32) (s : State),
    (s.mode = .uninit → AnswersOnly (.setp id v) s 0x0300000000#40) ∧
    ∀ e, s.mode = .ready e →
      (11 < id.toNat → AnswersOnly (.setp id v) s 0x0200000000#40) ∧
      (id.toNat ≤ 11 → ∃ ps : Vector F32 12,
        exec (.setp id v) s = .next { s with
          mode := .ready { e with params := ps }
          observed := .response s.port 0x0000000000#40 :: s.observed } ∧
        ∀ k : Fin 12, ps.get k = if k.val = id.toNat then v else e.params.get k)

/-- R143: `GETP` in its three cases. It changes no state. -/
def Obligations.GetpAnswersTheRegister : Prop :=
  ∀ (id : BitVec 8) (s : State),
    (s.mode = .uninit → AnswersOnly (.getp id) s 0x0300000000#40) ∧
    ∀ e, s.mode = .ready e →
      (11 < id.toNat → AnswersOnly (.getp id) s 0x0200000000#40) ∧
      (∀ k : Fin 12, k.val = id.toNat → AnswersOnly (.getp id) s (0x00#8 ++ e.params.get k))

/-- R146: after `SETP id, v` in `READY`, and any number of steps that serve no `SETP` to the same id, no `INIT`
and no `RESET`, `GETP id` answers `OK` with `v`, bit for bit, NaN patterns included. What is pending behind
the events that the steps took may be anything. -/
def Obligations.ParameterRoundTrip : Prop :=
  ∀ (s t u : State) (e : Engine) (id : BitVec 8) (v : F32) (k : Nat),
    s.mode = .ready e → id.toNat ≤ 11 → exec (.setp id v) s = .next t →
    run k t = .next u → (∀ ev ∈ taken t u, LeavesParam id ev) →
    AnswersOnly (.getp id) u (0x00#8 ++ v)

/-! ### INIT (46_orchestration.md R200 to R202) -/

/-- R35: `INIT sr` at a rate that passes the tests of R201, with no block in progress, answers `OK` and leaves
every piece of state at the value of the table; `BUF` and everything outside the engine is as before. -/
def Obligations.InitBuildsTheEngine : Prop :=
  ∀ (s : State) (sr : BitVec 32), s.busy = none → sr ≠ 0#32 → sr.toNat ≤ s.cfg.maxSampleRate.toNat →
    (∀ i, 2 ≤ roundTimes (s.cfg.lineSec.get i) sr.toNat) →
    ∃ e : Engine,
      exec (.init sr) s = .next { s with
        mode := .ready e
        observed := .response s.port 0x0000000000#40 :: s.observed } ∧
      e.busy = none ∧ e.sampleRate = sr ∧
      e.params = #v[0x00000000#32, 0x3F7FF972#32, 0x3F400000#32, 0x3F200000#32, 0x3F000000#32,
        0x3F333333#32, 0x3F000000#32, 0x3BA3D70A#32, 0x3F000000#32, 0x3F333333#32, 0x3E99999A#32,
        0x3F19999A#32] ∧
      (∀ i, (e.lines.get i).cap = nextPow2 (roundTimes (s.cfg.lineSec.get i) sr.toNat) ∧
        (e.lines.get i).size + 1 = roundTimes (s.cfg.lineSec.get i) sr.toNat ∧
        (e.lines.get i).mask + 1 = (e.lines.get i).cap ∧ (e.lines.get i).cur = 0 ∧
        ∀ j, ramRead (e.lines.get i).buf j = 0x00000000#32) ∧
      (∀ t, roundTimes (s.cfg.tapSec.get t) sr.toNat < 2 ^ 32 →
        (e.tapOff.get t).toNat = roundTimes (s.cfg.tapSec.get t) sr.toNat) ∧
      e.pdLen = sr.toNat ∧ e.pdW = 0 ∧ (∀ j, ramRead e.preDelay j = 0x00000000#32) ∧
      e.lp1 = 0x00000000#32 ∧ e.lp2 = 0x00000000#32 ∧ e.lp3 = 0x00000000#32 ∧ e.phase = 0x00000000#32

/-- R201, R131, with the default tables and the suggested maximum (general knowledge and a suggested value,
log entry 2): the rates that pass are 418 to 192000. -/
def Obligations.DefaultRatesAccepted : Prop :=
  ∀ sr : BitVec 32, checkRate defaultConfig sr = true ↔ 418 ≤ sr.toNat ∧ sr.toNat ≤ 192000

/-! ### PROC (R210 to R213, R276) -/

/-- R212: a `PROC` of no frames, whatever its `base`, answers `OK` and touches nothing. -/
def Obligations.ProcOfNoFrames : Prop :=
  ∀ (s : State) (e : Engine) (base : BitVec 32), s.mode = .ready e → e.busy = none →
    AnswersOnly (.proc 0#16 base) s 0x0000000000#40

/-- R210, R22: a `PROC` of at least one frame, in `READY`, with no block in progress and its range in `BUF`, is
accepted: `busy` becomes the record with no frame done, and nothing else changes. That the acceptance is
a step of its own is the model's choice (log entry 8). -/
def Obligations.ProcIsAccepted : Prop :=
  ∀ (s : State) (e : Engine) (count : BitVec 16) (base : BitVec 32), s.mode = .ready e → e.busy = none →
    count ≠ 0#16 → base.toNat + 2 * count.toNat ≤ s.cfg.bufWords.toNat →
    exec (.proc count base) s = .next { s with mode := .ready { e with
      busy := some { base := base, count := count, i := 0#16, call := s.port } } }

/-- R213, U5: a command ends in a fault exactly when it is a `PROC` of at least one frame that would be accepted
but whose range, computed without wrap-around, leaves `BUF`. That it ends in a fault is one of the two
treatments R38 and R249 allow (log entry 9). -/
def Obligations.CommandFaultsOnlyOutsideBuf : Prop :=
  ∀ (i : Instr) (s : State) (f : Fault), exec i s = .fault f ↔
    f = .blockOutsideBuf ∧ ∃ (e : Engine) (count : BitVec 16) (base : BitVec 32),
      i = .proc count base ∧ s.mode = .ready e ∧ e.busy = none ∧ count ≠ 0#16 ∧
      s.cfg.bufWords.toNat < base.toNat + 2 * count.toNat

/-- R276, R211: an accepted `PROC` runs exactly `count` frames, one a step, and then `busy` is `none` and the
response to the agent that issued it is `OK`; the next command of that agent, and what is pending behind it,
waits until then. The step that accepts the command is the model's choice (log entry 8), the list `pending`
too (log entry 7). -/
def Obligations.BlockRunsToCompletion : Prop :=
  ∀ (s : State) (e : Engine) (c : Call) (rest : List Event) (count : BitVec 16) (base : BitVec 32),
    s.Inv → s.mode = .ready e → e.busy = none → s.pending = .command c :: rest →
    WaitsBehind c.agent rest → decode c.word = .ok (.proc count base) → count ≠ 0#16 →
    base.toNat + 2 * count.toNat ≤ s.cfg.bufWords.toNat →
    (∀ k < count.toNat, ∃ t, run (k + 1) s = .next t ∧ t.observed = s.observed ∧ t.pending = rest ∧
      t.busy = some { base := base, count := count, i := BitVec.ofNat 16 k, call := c }) ∧
    ∃ t, run (count.toNat + 1) s = .next t ∧ t.busy = none ∧ t.pending = rest ∧
      t.observed = .response c 0x0000000000#40 :: s.observed ∧ t.draws = s.draws + count.toNat

/-- R210: `PROC b, n` followed by `PROC b + 2n, m` from the same agent has the same effect on the engine and on
`BUF` as `PROC b, n + m`. Each command has an accepting step besides its frames (log entry 8). The equality is bit for bit, NaN bits
and reads at NaN or infinite offsets included, because both runs draw the same free values: the model draws
them by the number of the frame (log entries 4, 5, 14), which is its choice and not the spec's (U2, U4). -/
def Obligations.ConsecutiveBlocksAreOneBlock : Prop :=
  ∀ (s : State) (e : Engine) (c1 c2 c3 : Call) (n m nm : BitVec 16) (b b2 : BitVec 32),
    s.Inv → s.mode = .ready e → e.busy = none → c1.agent = c2.agent →
    decode c1.word = .ok (.proc n b) → decode c2.word = .ok (.proc m b2) →
    decode c3.word = .ok (.proc nm b) →
    nm.toNat = n.toNat + m.toNat → b2.toNat = b.toNat + 2 * n.toNat →
    b.toNat + 2 * nm.toNat ≤ s.cfg.bufWords.toNat →
    ∃ t1 t2,
      run (n.toNat + 1 + (m.toNat + 1)) { s with pending := [.command c1, .command c2] } = .next t1 ∧
      run (nm.toNat + 1) { s with pending := [.command c3] } = .next t2 ∧
      t1.mode = t2.mode ∧ t1.buf = t2.buf ∧ t1.draws = t2.draws

/-! ### Errors (60_exceptions.md) -/

/-- R231: `ConfigurationError` is answered by `INIT` alone, and exactly when a test of R201 fails; the state is
unchanged. -/
def Obligations.ConfigurationErrorExactly : Prop :=
  ∀ (i : Instr) (s : State), AnswersOnly i s 0x0100000000#40 ↔
    ∃ sr, i = .init sr ∧ s.busy = none ∧
      (sr = 0#32 ∨ s.cfg.maxSampleRate.toNat < sr.toNat ∨
        ∃ l, roundTimes (s.cfg.lineSec.get l) sr.toNat ≤ 1)

/-- R232, R147: `ParameterError` is answered by `SETP` and `GETP` alone, and exactly when, in `READY`, the id is
above 11; the state is unchanged. -/
def Obligations.ParameterErrorExactly : Prop :=
  ∀ (i : Instr) (s : State), AnswersOnly i s 0x0200000000#40 ↔
    ∃ (e : Engine) (id : BitVec 8), s.mode = .ready e ∧ 11 < id.toNat ∧
      (i = .getp id ∨ ∃ v, i = .setp id v)

/-- R234: the two causes of `StateError`, whatever the operands: no engine, for every command but `INIT`; a block
in progress, for `INIT` and `PROC`. -/
def Obligations.StateErrorExactly : Prop :=
  ∀ (i : Instr) (s : State), AnswersOnly i s 0x0300000000#40 ↔
    (s.mode = .uninit ∧ ∀ sr, i ≠ .init sr) ∨
    (s.busy ≠ none ∧ ((∃ sr, i = .init sr) ∨ ∃ count base, i = .proc count base))

/-- R233, R239: a command answered with a status that is not `OK` has had no effect but its response, whose data
are zero. -/
def Obligations.FailedCommandChangesNothing : Prop :=
  ∀ (i : Instr) (s t : State) (rw : ResponseWord), exec i s = .next t →
    t.observed = .response s.port rw :: s.observed → rw.extractLsb' 32 8 ≠ 0#8 →
    t = { s with observed := t.observed } ∧ rw.extractLsb' 0 32 = 0#32

/-! ### Steps, agents and the host (R73, R74, R91, R245, R260, R275) -/

/-- When the word on the port of an agent that does not wait decodes to a command, the step runs the command,
with that port as the one its response goes to. What reaches the block, and when, is the list `pending`
(the model's choice, log entry 7). -/
def Obligations.StepRunsTheDecodedCommand : Prop :=
  ∀ (s : State) (c : Call) (rest : List Event) (i : Instr), s.pending = .command c :: rest →
    s.waits c.agent = false → decode c.word = .ok i → i.wf = true →
    step s = exec i { s with pending := rest, port := c }

/-- The word placed by `withFetchWord` is what the very next step serves, in every state: the command the decoder
reads from it, or `CommandError`. How a program reaches the block is the model's choice (log entry 16). -/
def Obligations.FetchWordIsServedNext : Prop :=
  ∀ (s : State) (nbits w : Nat),
    (∀ i, decodeTableWord nbits w = some i →
      step (s.withFetchWord nbits w) = exec i { s with port := ⟨freeAgent s, tableWord nbits w⟩ }) ∧
    (decodeTableWord nbits w = none →
      step (s.withFetchWord nbits w) =
        .next (raise .commandError { s with port := ⟨freeAgent s, tableWord nbits w⟩ }))

/-- R91, R245: while an agent waits for a response its next command stays on its port; a command that is served
is answered at once, to its agent, with exactly one response, unless it is a `PROC` that is accepted, which
then is the block in progress. The list `pending` is the model's choice (log entry 7). -/
def Obligations.EachCommandIsAnsweredOnce : Prop :=
  ∀ (s t : State) (c : Call) (rest : List Event), s.pending = .command c :: rest → step s = .next t →
    (s.waits c.agent = true → t.pending = s.pending) ∧
    (s.waits c.agent = false → t.pending = rest ∧
      ((∃ rw, t.observed = .response c rw :: s.observed) ∨
       (t.observed = s.observed ∧ ∃ count base, decode c.word = .ok (.proc count base) ∧
         t.busy = some { base := base, count := count, i := 0#16, call := c })))

/-- R73, R214, R264: a `SETP` that the other agent issues while a block runs is served between two frames, and the
next frame uses the new value; nothing else of the engine or of the block differs. The order of the two is
the list `pending` (the model's choice, log entry 7). -/
def Obligations.SetpIsSeenByTheNextFrame : Prop :=
  ∀ (s : State) (e : Engine) (b : Block) (c : Call) (id : BitVec 8) (v : F32),
    s.mode = .ready e → e.busy = some b → b.i.toNat < b.count.toNat → s.hasWord (rightWord b) = true →
    c.agent ≠ b.call.agent → decode c.word = .ok (.setp id v) → id.toNat ≤ 11 →
    s.pending = [.command c] →
    ∃ ps : Vector F32 12, (∀ k : Fin 12, ps.get k = if k.val = id.toNat then v else e.params.get k) ∧
      run 1 s = .next { s with
        mode := .ready { e with params := ps }
        pending := []
        port := c
        observed := .response c 0x0000000000#40 :: s.observed } ∧
      run 2 s = .next (blockFrame { e with params := ps } b { s with
        mode := .ready { e with params := ps }
        pending := []
        port := c
        observed := .response c 0x0000000000#40 :: s.observed })

/-- R261: the `RESET` event, in any state, also during a block: `mode` is `UNINIT`, `busy` is `none`, and the
configuration and `BUF` are not touched; the event has no response. -/
def Obligations.ResetEventLeavesUninit : Prop :=
  ∀ (s : State) (rest : List Event), s.pending = .reset :: rest →
    ∃ t, step s = .next t ∧ t.mode = .uninit ∧ t.busy = none ∧ t.cfg = s.cfg ∧ t.buf = s.buf ∧
      t.observed = s.observed

/-- R63, R67, R74, R275: a host write of a word that no running block holds replaces that word and no other byte; a host read observes the
word and changes nothing else. Byte `k` of a word stands at `4w + k`, the least significant first (R65). -/
def Obligations.HostAccessesTouchOneWord : Prop :=
  ∀ (s : State) (rest : List Event) (w : BitVec 32),
    Memory.wf s.cfg.bufWords.toNat s.buf → w.toNat < s.cfg.bufWords.toNat → ¬ BlockHolds s w.toNat →
    (∀ v, s.pending = .hostWrite w v :: rest → ∃ m : Memory,
      step s = .next { s with pending := rest, buf := m } ∧ bufRead m w.toNat = v ∧
      (∀ k < 4, readByte m (4 * w.toNat + k) = v.extractLsb' (8 * k) 8) ∧
      ∀ a, a < 4 * w.toNat ∨ 4 * w.toNat + 4 ≤ a → readByte m a = readByte s.buf a) ∧
    (∀ k < 4, (bufRead s.buf w.toNat).extractLsb' (8 * k) 8 = readByte s.buf (4 * w.toNat + k)) ∧
    (s.pending = .hostRead w :: rest →
      step s = .next { s with
        pending := rest
        observed := .bufWord w (bufRead s.buf w.toNat) :: s.observed })

/-- R20: `mode` is written only by `RESET`, which leaves `UNINIT`, and by a successful `INIT`, which builds the
engine anew. -/
def Obligations.ModeChangesOnlyByResetAndInit : Prop :=
  ∀ s t : State, step s = .next t →
    (t.mode = .uninit → s.mode = .uninit ∨ ∃ rest, s.pending = .reset :: rest) ∧
    (s.mode = .uninit → ∀ e, t.mode = .ready e → ∃ c rest sr, s.pending = .command c :: rest ∧
      decode c.word = .ok (.init sr) ∧ checkRate s.cfg sr = true ∧ e = construct s.cfg sr)

/-- R33: no step changes the configuration, and `BUF` changes only by a host write or in a block. -/
def Obligations.ConfigurationNeverChanges : Prop :=
  ∀ s t : State, step s = .next t → t.cfg = s.cfg ∧
    (t.buf = s.buf ∨ s.busy ≠ none ∨ ∃ w v rest, s.pending = .hostWrite w v :: rest)

/-- R30, R129, R268: a step that serves no `INIT` changes no sample rate, no capacity, size or mask of a line, no tap
offset and no pre-delay length. -/
def Obligations.GeometryChangesOnlyAtInit : Prop :=
  ∀ (s t : State) (e e' : Engine), s.mode = .ready e → NoInitNext s → step s = .next t →
    t.mode = .ready e' →
    e'.sampleRate = e.sampleRate ∧ e'.pdLen = e.pdLen ∧ e'.tapOff = e.tapOff ∧
    ∀ i, (e'.lines.get i).cap = (e.lines.get i).cap ∧ (e'.lines.get i).size = (e.lines.get i).size ∧
      (e'.lines.get i).mask = (e.lines.get i).mask

/-- No step answers that an instruction has no meaning. -/
def Obligations.NoStepIsRefused : Prop :=
  ∀ (s : State) (r : Refusal), step s ≠ .refused r

/-- R249: in a state that satisfies the invariant a step faults only for what the spec calls a misuse by the host: a
`PROC` whose range leaves `BUF`, a host access to a word of the running block, or to a word that does not
exist. No frame faults. And in every state a host access to a word from `BUF_WORDS` on, or to a word from `base` to
`base + 2·count − 1` of the block in progress (R74), ends in its fault. That these end in a fault is log entries
9, 10 and 11. -/
def Obligations.FaultsAreHostMisuse : Prop :=
  (∀ (s : State) (f : Fault), s.Inv → step s = .fault f →
    (f = .blockOutsideBuf ∧ ∃ c rest count base, s.pending = .command c :: rest ∧
      decode c.word = .ok (.proc count base) ∧
      s.cfg.bufWords.toNat < base.toNat + 2 * count.toNat) ∨
    ∃ (w : BitVec 32) (rest : List Event),
      (s.pending = .hostRead w :: rest ∨ ∃ v, s.pending = .hostWrite w v :: rest) ∧
      ((f = .noSuchWord ∧ s.cfg.bufWords.toNat ≤ w.toNat) ∨
       (f = .hostTouchedBlock ∧ BlockHolds s w.toNat))) ∧
  ∀ (s : State) (w : BitVec 32) (rest : List Event),
    (s.pending = .hostRead w :: rest ∨ ∃ v, s.pending = .hostWrite w v :: rest) →
    (s.cfg.bufWords.toNat ≤ w.toNat → step s = .fault .noSuchWord) ∧
    (w.toNat < s.cfg.bufWords.toNat → BlockHolds s w.toNat → step s = .fault .hostTouchedBlock)

/-! ### Invariants (R36, R129) -/

/-- The invariant holds right after reset. It rests on the reset values of log entries 2 and 6. -/
def Obligations.ResetSatisfiesTheInvariant : Prop := State.reset.Inv

/-- R36, R129: every step keeps the invariant, for every configuration. -/
def Obligations.StepKeepsTheInvariant : Prop :=
  ∀ s t : State, s.Inv → step s = .next t → t.Inv

/-- R36, R216: all cursors have advanced the same number of times. A step from `READY` to `READY` keeps the count
without a frame, or adds one with a frame, unless it is an `INIT` that passes `CHECK`, after which the count
is 0. -/
def Obligations.StepKeepsCursorsInStep : Prop :=
  ∀ (s t : State) (e e' : Engine) (F : Nat), s.Inv → s.mode = .ready e → e.InStep F →
    step s = .next t → t.mode = .ready e' →
    (t.draws = s.draws ∧ e'.InStep F) ∨ (t.draws = s.draws + 1 ∧ e'.InStep (F + 1)) ∨
    (e'.InStep 0 ∧ ∃ c rest sr, s.pending = .command c :: rest ∧ s.waits c.agent = false ∧
      decode c.word = .ok (.init sr) ∧ checkRate s.cfg sr = true ∧ e' = construct s.cfg sr)

/-! ### Integers and binary32 (00_scope.md R11 to R15) -/

/-- R11: `nextPow2(n)` is the least power of two that is at least `n`. -/
def Obligations.CapacityIsTheLeastPowerOfTwo : Prop :=
  ∀ n : Nat, 1 ≤ n →
    (∃ k, nextPow2 n = 2 ^ k) ∧ n ≤ nextPow2 n ∧ ∀ k, n ≤ 2 ^ k → nextPow2 n ≤ 2 ^ k

/-- R12, R121: a length or an offset is the exact product rounded half up. -/
def Obligations.LengthsAreRoundedHalfUp : Prop :=
  ∀ (d : Decimal) (k : Nat),
    (roundTimes d k : Int) = ⌊((d.mantissa : ℚ) / 10 ^ d.places) * k + 1 / 2⌋

/-- R14: on finite operands each operation is the exact result rounded once, to nearest, ties to even, with gradual
underflow and with overflow to infinity; infinities, divisions by zero, invalid operations and the sign of a
zero result are as IEEE 754 says. -/
def Obligations.ArithmeticIsRoundedToNearest : Prop :=
  ∀ (q : NanBits) (a b : F32), Fp.isNan a = false → Fp.isNan b = false →
    let sx := Fp.sign a != Fp.sign b
    (Fp.isFinite a = true → Fp.isFinite b = true →
      Nearest (Fp.fadd q a b) (Fp.units a + Fp.units b) 1 ∧
      Nearest (Fp.fsub q a b) (Fp.units a - Fp.units b) 1 ∧
      Nearest (Fp.fmul q a b) (Fp.units a * Fp.units b) (2 ^ 149) ∧
      Fp.sign (Fp.fmul q a b) = sx ∧
      (Fp.units a + Fp.units b = 0 → ZeroOf (Fp.fadd q a b) (Fp.sign a && Fp.sign b)) ∧
      (Fp.units a - Fp.units b = 0 → ZeroOf (Fp.fsub q a b) (Fp.sign a && !Fp.sign b)) ∧
      ((Fp.isZero a || Fp.isZero b) = true → ZeroOf (Fp.fmul q a b) sx) ∧
      (Fp.isZero b = false →
        Nearest (Fp.fdiv q a b) (Fp.units a * 2 ^ 149 * (Fp.units b).sign) (Fp.units b).natAbs ∧
        Fp.sign (Fp.fdiv q a b) = sx ∧ (Fp.isZero a = true → ZeroOf (Fp.fdiv q a b) sx)) ∧
      (Fp.isZero b = true → if Fp.isZero a then Fp.isNan (Fp.fdiv q a b) = true
        else InfOf (Fp.fdiv q a b) sx)) ∧
    (Fp.isInf a = true → Fp.isFinite b = true →
      Fp.fadd q a b = a ∧ Fp.fsub q a b = a ∧ InfOf (Fp.fdiv q a b) sx) ∧
    (Fp.isFinite a = true → Fp.isInf b = true →
      Fp.fadd q a b = b ∧ InfOf (Fp.fsub q a b) (!Fp.sign b) ∧ ZeroOf (Fp.fdiv q a b) sx) ∧
    (Fp.isInf a = true → Fp.isInf b = true →
      (if sx then Fp.isNan (Fp.fadd q a b) = true else Fp.fadd q a b = a) ∧
      (if sx then Fp.fsub q a b = a else Fp.isNan (Fp.fsub q a b) = true) ∧
      Fp.isNan (Fp.fdiv q a b) = true) ∧
    ((Fp.isInf a || Fp.isInf b) = true →
      if Fp.isZero a || Fp.isZero b then Fp.isNan (Fp.fmul q a b) = true else InfOf (Fp.fmul q a b) sx)

/-- R14, U2: a NaN result is a quiet NaN whose other bits, the sign and the payload, are the 23 bits of the free
value of the operation (log entry 4), and an operation on a NaN gives one. -/
def Obligations.NanResultsAreQuietAndFree : Prop :=
  ∀ (q : NanBits) (a b : F32),
    (Fp.isNan (Fp.quietNan q) = true ∧ (Fp.quietNan q).extractLsb' 22 9 = 0x1FF#9 ∧
      (Fp.quietNan q).extractLsb' 31 1 = q.extractLsb' 22 1 ∧
      (Fp.quietNan q).extractLsb' 0 22 = q.extractLsb' 0 22) ∧
    ∀ op ∈ [Fp.fadd, Fp.fsub, Fp.fmul, Fp.fdiv],
      (Fp.isNan (op q a b) = true → op q a b = Fp.quietNan q) ∧
      ((Fp.isNan a || Fp.isNan b) = true → op q a b = Fp.quietNan q)

/-! ### The delay line (40_delay_line.md, 20_memory.md R69 to R72) -/

/-- R69: two offsets name the same cell exactly when they differ by a multiple of `cap`. -/
def Obligations.OffsetsWrapAtTheCapacity : Prop :=
  ∀ (l : Line) (k k' : Int), l.Ok → (dlIndex l k = dlIndex l k' ↔ (l.cap : Int) ∣ k - k')

/-- R70: what a tap read at any offset returns, before and after the frame's write, `F` frames after `INIT`. -/
def Obligations.TapReadMeansDelay : Prop :=
  ∀ (length : Nat) (vs : List F32) (v : F32) (k : Int), 2 ≤ length →
    let l := lineFrames (dlInit length) vs
    let k' := k % (l.cap : Int)
    dlReadTap l k = sampleOf vs ((vs.length : Int) - (if k' = 0 then (l.cap : Int) else k')) ∧
    dlReadTap (dlWrite l v) k = if k' = 0 then v else sampleOf vs ((vs.length : Int) - k')

/-- R72, R124: a fixed read is the tap read at offset `size`, on a line by itself and on one of the twelve; it never
reads the cursor cell, so it returns the same sample before and after the frame's write to the line; and `F`
frames after `INIT` that is the sample of frame `F − size`, `size = length − 1`, or `+0.0` before the first. -/
def Obligations.FixedReadSeesEarlierFrames : Prop :=
  (∀ l : Line, dlReadFixed l = dlReadTap l l.size) ∧
  (∀ (ls : Vector Line 12) (i : Fin 12), lineFixed ls i = dlReadTap (ls.get i) (ls.get i).size) ∧
  (∀ (l : Line) (v : F32), l.Ok →
    dlIndex l l.size ≠ l.cur ∧ dlReadFixed (dlWrite l v) = dlReadFixed l) ∧
  ∀ (length : Nat) (vs : List F32) (v : F32), 2 ≤ length →
    let l := lineFrames (dlInit length) vs
    let earlier := sampleOf vs ((vs.length : Int) - ((length : Int) - 1))
    dlReadFixed l = earlier ∧ dlReadFixed (dlWrite l v) = earlier

/-- R126 to R128: at every finite offset the interpolated read takes the four taps around `size + n`, `n` the floor of
the offset, and is the cubic in `f`, in the nesting of R127; `f` is in [0, 1], and the exact fraction at an
offset that is not negative. At an integer offset the read equals `readTap(size + n)` as a number, and bit for
bit when that sample is not a zero, as long as the three coefficients are finite; otherwise it is a NaN. -/
def Obligations.InterpolationAtIntegerOffsets : Prop :=
  ∀ (d : Draws) (l : Line) (off : F32), Fp.isFinite off = true →
    let n := Fp.floor off
    let f := Fp.fsub (d.nan 19) off (Fp.u2fSigned n)
    let x0 := dlReadTap l (l.size + n - 1)
    let x1 := dlReadTap l (l.size + n)
    let x2 := dlReadTap l (l.size + n + 1)
    let x3 := dlReadTap l (l.size + n + 2)
    let a := Fp.fmul (d.nan 4) (Fp.fadd (d.nan 3) (Fp.fsub (d.nan 2)
      (Fp.fmul (d.nan 1) 0x40400000#32 (Fp.fsub (d.nan 0) x1 x2)) x0) x3) 0x3F000000#32
    let b := Fp.fsub (d.nan 10) (Fp.fadd (d.nan 6) (Fp.fmul (d.nan 5) 0x40000000#32 x2) x0)
      (Fp.fmul (d.nan 9) (Fp.fadd (d.nan 8) (Fp.fmul (d.nan 7) 0x40A00000#32 x1) x3) 0x3F000000#32)
    let c := Fp.fmul (d.nan 12) (Fp.fsub (d.nan 11) x2 x0) 0x3F000000#32
    let r := dlReadInterp d l off
    let finite := Fp.isFinite a && Fp.isFinite b && Fp.isFinite c
    r = Fp.fadd (d.nan 18) (Fp.fmul (d.nan 17) (Fp.fadd (d.nan 16) (Fp.fmul (d.nan 15)
      (Fp.fadd (d.nan 14) (Fp.fmul (d.nan 13) a f) b) f) c) f) x1 ∧
    n * 2 ^ 149 ≤ Fp.units off ∧ Fp.units off < (n + 1) * 2 ^ 149 ∧
    Fp.isFinite f = true ∧ 0 ≤ Fp.units f ∧ Fp.units f ≤ 2 ^ 149 ∧
    (0 ≤ Fp.units off → Fp.units f = Fp.units off - n * 2 ^ 149) ∧
    (Fp.units off % 2 ^ 149 = 0 →
      (finite = true → Fp.isFinite x1 = true →
        Fp.isFinite r = true ∧ Fp.units r = Fp.units x1 ∧ (Fp.isZero x1 = false → r = x1)) ∧
      (finite = false → Fp.isNan r = true))

/-! ### Pre-delay and filters (42_predelay_lowpass.md) -/

/-- R152: the pre-delay in samples, for every value of the parameter: NaN, zeros, negatives and −infinity count as 0,
+infinity as `pdLen`, and a positive value is truncated and clamped to `pdLen`. -/
def Obligations.PreDelayIsClamped : Prop :=
  ∀ (v : F32) (n : Nat), 1 ≤ n →
    pdSamples v n ≤ n ∧
    (Fp.isNan v = true → pdSamples v n = 0) ∧
    (Fp.isInf v = true → pdSamples v n = if Fp.sign v then 0 else n) ∧
    (Fp.isFinite v = true → Fp.units v ≤ 0 → pdSamples v n = 0) ∧
    (Fp.isFinite v = true → 0 < Fp.units v → n < 2 ^ 24 →
      pdSamples v n = min n ((Fp.units v).toNat / 2 ^ 149))

/-- R153, C4: the read names the cell `(pdW − p) mod pdLen`. A pre-delay of 0 and one of `pdLen` both return this
frame's `mono`; any other returns what the cell held before this frame, which on a stage that was cleared
`vs.length` frames ago is the mono sum of `p` frames ago, or `+0.0` before the first. -/
def Obligations.FullPreDelayWrapsToZero : Prop :=
  ∀ (e : Engine) (v : F32) (p : Nat), cellsWf e.pdLen e.preDelay → e.pdW < e.pdLen →
    pdRead e p = ramRead e.preDelay (((e.pdW : Int) - (p : Int)) % (e.pdLen : Int)).toNat ∧
    pdRead (pdWrite e v) 0 = v ∧ pdRead (pdWrite e v) e.pdLen = v ∧
    (0 < p → p < e.pdLen → pdRead (pdWrite e v) p = pdRead e p) ∧
    (e.preDelay = [] → e.pdW = 0 → p ≤ e.pdLen → ∀ vs : List F32,
      pdRead (pdWrite (pdFrames e vs) v) p =
        if p = 0 ∨ p = e.pdLen then v else sampleOf vs ((vs.length : Int) - (p : Int)))

/-- R154, R269: a NaN in a filter state stays there over every step that serves no `INIT` and is no `RESET`. -/
def Obligations.NanNeverLeavesAFilter : Prop :=
  ∀ (s t : State) (e e' : Engine), s.mode = .ready e → NoInitNext s → step s = .next t →
    t.mode = .ready e' →
    (Fp.isNan e.lp1 = true → Fp.isNan e'.lp1 = true) ∧
    (Fp.isNan e.lp2 = true → Fp.isNan e'.lp2 = true) ∧
    (Fp.isNan e.lp3 = true → Fp.isNan e'.lp3 = true)

/-! ### Diffuser and tank (43_diffuser_chain.md, 44_tank.md) -/

/-- R161 to R165: the chain over the samples that lines 0 to 3 held before the frame: what it writes into each line,
what it leaves, and `split`. -/
def Obligations.DiffuserOverEarlierFrames : Prop :=
  ∀ (d : Draws) (fi si lp1 : F32) (ls : Vector Line 12), (∀ i, (ls.get i).Ok) →
    let f (i : Fin 12) := lineFixed ls i
    let p1 := Fp.fsub (d.nan 1) lp1 (Fp.fmul (d.nan 0) fi (f 0))
    let p2 := Fp.fadd (d.nan 4) (Fp.fmul (d.nan 3) fi (Fp.fsub (d.nan 2) p1 (f 1))) (f 0)
    let p3 := Fp.fsub (d.nan 8) (Fp.fadd (d.nan 6) (Fp.fmul (d.nan 5) fi p2) (f 1))
      (Fp.fmul (d.nan 7) si (f 2))
    let p4 := Fp.fadd (d.nan 11) (Fp.fmul (d.nan 10) si (Fp.fsub (d.nan 9) p3 (f 3))) (f 2)
    let x := diffuser d fi si lp1 ls
    x.lines.get 0 = dlWrite (ls.get 0) p1 ∧ x.lines.get 1 = dlWrite (ls.get 1) p2 ∧
    x.lines.get 2 = dlWrite (ls.get 2) p3 ∧ x.lines.get 3 = dlWrite (ls.get 3) p4 ∧
    (∀ i : Fin 12, 4 ≤ i.val → x.lines.get i = ls.get i) ∧
    x.pre = Fp.fadd (d.nan 13) (Fp.fmul (d.nan 12) si p4) (f 3)

/-- R24, R173 to R182, R267: a pass of either loop over the samples the lines held before the frame, the left loop's
lines being 4, 5, 6, 7, fed by 11, the right loop's 8, 9, 10, 11, fed by 7: what it writes into each of its
four lines, its filter state (R154), and that it touches no other line. The second interpolated read returns
what the first line held before the write, when none of its four cells aliases. -/
def Obligations.TankLoopOverEarlierFrames : Prop :=
  ∀ (d : Draws) (c : TankCoefficients) (split exc lp : F32) (ls : Vector Line 12) (r : LoopLines)
    (first second third last cross : Fin 12),
    (r, first, second, third, last, cross) ∈ [(leftLoop, 4, 5, 6, 7, 11), (rightLoop, 8, 9, 10, 11, 7)] →
    (∀ i, (ls.get i).Ok) →
    let a1 := dlReadInterp d (ls.get first) exc
    let t := Fp.fadd (d.nan 23)
      (Fp.fadd (d.nan 21) split (Fp.fmul (d.nan 20) c.dc (lineFixed ls cross)))
      (Fp.fmul (d.nan 22) c.ft a1)
    let a2 := dlReadInterp (d.shift 30) (dlWrite (ls.get first) t) exc
    let lp' := Fp.fadd (d.nan 62) lp (Fp.fmul (d.nan 61) c.dp (Fp.fsub (d.nan 60) (lineFixed ls second) lp))
    let t2 := Fp.fsub (d.nan 65) (Fp.fmul (d.nan 63) c.dc lp')
      (Fp.fmul (d.nan 64) c.st (lineFixed ls third))
    let o := loopPass d c r split exc lp ls
    o.value = lp' ∧
    o.lines.get first = dlWrite (ls.get first) t ∧
    o.lines.get second =
      dlWrite (ls.get second) (Fp.fsub (d.nan 51) a2 (Fp.fmul (d.nan 50) c.ft t)) ∧
    o.lines.get third = dlWrite (ls.get third) t2 ∧
    o.lines.get last = dlWrite (ls.get last)
      (Fp.fadd (d.nan 67) (lineFixed ls third) (Fp.fmul (d.nan 66) c.st t2)) ∧
    (∀ i, i ∉ [first, second, third, last] → o.lines.get i = ls.get i) ∧
    (noAlias (ls.get first) exc → a2 = dlReadInterp (d.shift 30) (ls.get first) exc)

/-- R183: running the right loop first, or both at once on the lines as they were, gives the same lines and the same
filter states, and so the same outputs. -/
def Obligations.LoopOrderIsIrrelevant : Prop :=
  ∀ (dl dr : Draws) (c : TankCoefficients) (split excL excR lp2 lp3 : F32) (ls : Vector Line 12),
    (ls.get 7).Ok → (ls.get 11).Ok →
    let left := loopPass dl c leftLoop split excL lp2 ls
    let right := loopPass dr c rightLoop split excR lp3 left.lines
    let right' := loopPass dr c rightLoop split excR lp3 ls
    let left' := loopPass dl c leftLoop split excL lp2 right'.lines
    left'.lines = right.lines ∧ left'.value = left.value ∧ right'.value = right.value ∧
    (∀ i : Fin 12, right.lines.get i = if 8 ≤ i.val then right'.lines.get i else left.lines.get i) ∧
    ∀ (d : Draws) (cfg : Config) (ps : Snapshot) (e : Engine) (inL inR : F32),
      frameOutput d cfg ps { e with lines := left'.lines, lp2 := left'.value, lp3 := right'.value } inL inR =
        frameOutput d cfg ps { e with lines := right.lines, lp2 := left.value, lp3 := right.value } inL inR

/-- R14, R171, R172: what may be assumed of the open functions; `ed` is the depth times the rate, divided by
`DEPTH_DIV`; a depth of zero gives `ed = +0.0` and switches the modulation off, and at phase 0 the offsets
are `2·ed` and `ed`. -/
def Obligations.LfoAtZeroDepthAndZeroPhase : Prop :=
  (∀ p, Fp.isFinite p = true →
    Fp.mag (Fp.cos2pi p) ≤ Fp.mag Fp.one ∧ Fp.mag (Fp.sin2pi p) ≤ Fp.mag Fp.one) ∧
  (∀ (d : Draws) (depth depthDiv : F32) (sr : BitVec 32),
    excursionDepth d depth depthDiv sr =
      Fp.fdiv (d.nan 1) (Fp.fmul (d.nan 0) depth (Fp.u2f sr.toNat)) depthDiv) ∧
  (∀ (d : Draws) (depthDiv : F32) (sr : BitVec 32), Fp.isNan depthDiv = false →
    Fp.isZero depthDiv = false → Fp.sign depthDiv = false →
    excursionDepth d Fp.posZero depthDiv sr = Fp.posZero) ∧
  (∀ (d : Draws) (p : F32), Fp.isFinite p = true →
    lfoOffset d Fp.posZero (Fp.cos2pi p) = Fp.posZero ∧
    lfoOffset d Fp.posZero (Fp.sin2pi p) = Fp.posZero) ∧
  (∀ (d : Draws) (ed : F32), Fp.isNan ed = false →
    lfoOffset d ed (Fp.cos2pi Fp.posZero) = Fp.fmul (d.nan 1) ed Fp.two ∧
    lfoOffset d ed (Fp.sin2pi Fp.posZero) = ed)

/-- R172: for a finite depth that is not negative and a finite phase, both offsets lie in `[0, 2·ed]`. -/
def Obligations.LfoOffsetsStayInRange : Prop :=
  ∀ (d : Draws) (ed p : F32), Fp.isFinite p = true → Fp.isFinite ed = true → Fp.ge ed Fp.posZero = true →
    ∀ lfo ∈ [Fp.cos2pi p, Fp.sin2pi p],
      Fp.ge (lfoOffset d ed lfo) Fp.posZero = true ∧
      Fp.le (lfoOffset d ed lfo) (Fp.fmul (d.nan 1) ed Fp.two) = true

/-- R29, R184: while `excursion_rate / SR` is finite and not negative, every step keeps the phase in [0, 1); so does
the phase advance, which a rate of a zero of either sign freezes, and which, where the sum of phase and
`excursion_rate / SR` is finite, is that sum less its integer part from 1.0 on, exactly. -/
def Obligations.PhaseStaysInUnitInterval : Prop :=
  (∀ (s t : State) (e e' : Engine), s.mode = .ready e → inUnit e.phase → e.RateInDomain →
    step s = .next t → t.mode = .ready e' → inUnit e'.phase) ∧
  (∀ (d : Draws) (phase rate : F32) (sr : BitVec 32), sr ≠ 0#32 → inUnit phase →
    (Fp.isFinite (Fp.fdiv (d.nan 0) rate (Fp.u2f sr.toNat)) = true →
      Fp.ge (Fp.fdiv (d.nan 0) rate (Fp.u2f sr.toNat)) Fp.posZero = true →
      inUnit (phaseAdvance d phase rate sr)) ∧
    (Fp.isZero rate = true → Fp.units (phaseAdvance d phase rate sr) = Fp.units phase)) ∧
  ∀ (d : Draws) (phase rate : F32) (sr : BitVec 32),
    let ph := Fp.fadd (d.nan 1) phase (Fp.fdiv (d.nan 0) rate (Fp.u2f sr.toNat))
    let phase' := phaseAdvance d phase rate sr
    Fp.isFinite ph = true → Fp.isFinite phase' = true ∧
      Fp.units phase' = if Fp.units ph < 2 ^ 149 then Fp.units ph else Fp.units ph % 2 ^ 149

/-! ### Mixer (45_tap_mixer.md) -/

/-- R192, R193: the two wet sums, in tap order, for every table of signs: the first term as it is or with its sign
bit flipped, each later term added or subtracted; and written out with the default signs (general knowledge,
log entry 2). -/
def Obligations.WetSumsWithDefaultSigns : Prop :=
  ∀ (d : Draws) (cfg : Config) (e : Engine),
    let tv (t : Fin 14) := dlReadTap (e.lines.get (cfg.tapLine.get t)) (e.tapOff.get t).toNat
    let first (t : Fin 14) := if cfg.tapSign.get t = .plus then tv t else tv t ^^^ 0x80000000#32
    let term (k : Nat) (acc : F32) (t : Fin 14) :=
      if cfg.tapSign.get t = .plus then Fp.fadd (d.nan k) acc (tv t) else Fp.fsub (d.nan k) acc (tv t)
    wetLeft d cfg e = term 6 (term 5 (term 4 (term 3 (term 2 (term 1 (first 0) 1) 2) 3) 4) 5) 6 ∧
    wetRight d cfg e = term 6 (term 5 (term 4 (term 3 (term 2 (term 1 (first 7) 8) 9) 10) 11) 12) 13 ∧
    (cfg.tapSign = tapSignDefault →
      wetLeft d cfg e = Fp.fsub (d.nan 6) (Fp.fsub (d.nan 5) (Fp.fsub (d.nan 4) (Fp.fadd (d.nan 3)
        (Fp.fsub (d.nan 2) (Fp.fadd (d.nan 1) (tv 0) (tv 1)) (tv 2)) (tv 3)) (tv 4)) (tv 5)) (tv 6) ∧
      wetRight d cfg e = Fp.fsub (d.nan 6) (Fp.fsub (d.nan 5) (Fp.fsub (d.nan 4) (Fp.fadd (d.nan 3)
        (Fp.fsub (d.nan 2) (Fp.fadd (d.nan 1) (tv 7) (tv 8)) (tv 9)) (tv 10)) (tv 11)) (tv 12)) (tv 13))

/-- R267 (b), R130, with the default tables (general knowledge, log entry 2): at every rate that passes `INIT`, each tap
offset is a true delay on its line. -/
def Obligations.DefaultTapsDoNotAlias : Prop :=
  ∀ (sr : BitVec 32) (t : Fin 14), checkRate defaultConfig sr = true →
    0 < ((construct defaultConfig sr).tapOff.get t).toNat ∧
    ((construct defaultConfig sr).tapOff.get t).toNat <
      ((construct defaultConfig sr).lines.get (tapLineDefault.get t)).cap

/-- R194 (a): with `wet = 0` and `dry = 1`, a finite wet sum leaves the input as it is: equal as a number, and bit for
bit when it is not a zero. -/
def Obligations.DryInputPassesThrough : Prop :=
  ∀ (d : Draws) (q : NanBits) (input wetSample : F32),
    Fp.isFinite input = true → Fp.isFinite wetSample = true →
    let r := outputMix d input Fp.one wetSample (wetGain q Fp.posZero)
    Fp.isFinite r = true ∧ Fp.units r = Fp.units input ∧ (Fp.isZero input = false → r = input)

/-- R194 (c): the first frame after `INIT` returns the input times the default `dry`, 0.6, in each channel, as long as
no tap offset is a multiple of its line's capacity. -/
def Obligations.FirstFrameAfterInitIsDry : Prop :=
  ∀ (d : Draws) (cfg : Config) (sr : BitVec 32) (inL inR : F32), checkRate cfg sr = true →
    (∀ t, dlIndex ((construct cfg sr).lines.get (cfg.tapLine.get t))
      ((construct cfg sr).tapOff.get t).toNat ≠ 0) →
    Fp.isFinite inL = true → Fp.isFinite inR = true →
    let out := (frame d cfg (construct cfg sr) inL inR).out
    Fp.units out.left = Fp.units (Fp.fmul 0#23 inL 0x3F19999A#32) ∧
    Fp.units out.right = Fp.units (Fp.fmul 0#23 inR 0x3F19999A#32)

/-! ### The frame (46_orchestration.md R214 to R218) -/

/-- R214 to R216, R218: how a frame is wired, and all that it changes. Every line is written exactly once, at its
cursor, and advanced; the pre-delay RAM takes the mono sum at its cursor; the pre-delay read feeds the
bandwidth filter (R154, R155), the filter the diffuser with `input_diffusion_1` and `_2` as `fi` and `si` (R160),
the diffuser's `split` both loops (R165), the left loop with the cosine offset and `lp2` and the right loop
with the sine offset and `lp3` (R171 to R182), over `decay`, `decay_diffusion_1`, `_2` and `1 − damping`
(R170); the taps read the lines after the twelve writes (R191); the outputs mix the inputs with `dry` and the
wet sums with `wet` (R194); the phase advances by `excursion_rate / SR` and loses its integer part from 1.0 on,
plus infinity becoming a NaN (R184). That a sum of minus infinity is stored as it is, is the model's reading of R184
over R29, which says a NaN (log entry 22). The sample rate, the parameters, the tap offsets, the pre-delay length
and `busy` are as before. -/
def Obligations.FrameWritesEachLineOnce : Prop :=
  ∀ (d : Draws) (cfg : Config) (e : Engine) (inL inR : F32),
    let e' := (frame d cfg e inL inR).engine
    let out := (frame d cfg e inL inR).out
    let ps (k : Fin 12) := e.params.get k
    let m := Fp.fadd (d.nan 0) inL inR
    let pd := pdRead (pdWrite e m) (pdSamples (ps 0) e.pdLen)
    let lp1 := Fp.fadd (d.nan 3) e.lp1 (Fp.fmul (d.nan 2) (ps 1) (Fp.fsub (d.nan 1) pd e.lp1))
    let x := diffuser (d.shift 10) (ps 2) (ps 3) lp1 e.lines
    let c : TankCoefficients :=
      { dc := ps 4, ft := ps 5, st := ps 6, dp := Fp.fsub (d.nan 30) Fp.one (ps 7) }
    let ed := Fp.fdiv (d.nan 41) (Fp.fmul (d.nan 40) (ps 9) (Fp.u2f e.sampleRate.toNat)) cfg.depthDiv
    let excL := Fp.fmul (d.nan 43) ed (Fp.fadd (d.nan 42) Fp.one (Fp.cos2pi e.phase))
    let excR := Fp.fmul (d.nan 45) ed (Fp.fadd (d.nan 44) Fp.one (Fp.sin2pi e.phase))
    let left := loopPass ((d.shift 10).shift 100) c leftLoop x.pre excL e.lp2 x.lines
    let right := loopPass ((d.shift 10).shift 200) c rightLoop x.pre excR e.lp3 left.lines
    let wetL := wetLeft (d.shift 400) cfg { e with lines := right.lines }
    let wetR := wetRight ((d.shift 400).shift 10) cfg { e with lines := right.lines }
    let we := Fp.fmul (d.nan 440) (ps 10) 0x3F19999A#32
    let ph := Fp.fadd (d.nan 451) e.phase (Fp.fdiv (d.nan 450) (ps 8) (Fp.u2f e.sampleRate.toNat))
    (∀ i, ∃ v, e'.lines.get i = dlAdvance (dlWrite (e.lines.get i) v)) ∧
    (∀ i, e'.lines.get i = dlAdvance (right.lines.get i)) ∧
    e'.preDelay = ramWrite e.preDelay e.pdW m ∧ e'.pdW = (e.pdW + 1) % e.pdLen ∧
    e'.lp1 = lp1 ∧ e'.lp2 = left.value ∧ e'.lp3 = right.value ∧
    e'.phase = (if Fp.ge ph Fp.one = true then
        if Fp.isInf ph = true then Fp.quietNan (d.nan 453)
        else Fp.fsub (d.nan 452) ph (Fp.u2fSigned (Fp.floor ph))
      else ph) ∧
    out.left = Fp.fadd (d.nan 432) (Fp.fmul (d.nan 430) inL (ps 11)) (Fp.fmul (d.nan 431) wetL we) ∧
    out.right = Fp.fadd (d.nan 435) (Fp.fmul (d.nan 433) inR (ps 11)) (Fp.fmul (d.nan 434) wetR we) ∧
    e'.sampleRate = e.sampleRate ∧ e'.params = e.params ∧ e'.tapOff = e.tapOff ∧ e'.pdLen = e.pdLen ∧
    e'.busy = e.busy

/-- R22, R64, R194, R215: every step that gives the datapath its turn while a block runs (nothing pending, the event
`frame`, or a command of the waiting agent: log entry 7) reads the two words of the frame, writes the frame's
outputs into the same two words, leaves every other byte of `BUF`, and counts the frame; the last frame of the
block delivers the response. -/
def Obligations.FrameStepWritesItsTwoWords : Prop :=
  ∀ (s : State) (e : Engine) (b : Block) (rest : List Event), s.Inv → s.mode = .ready e →
    e.busy = some b → DatapathTurn s b rest →
    let w := b.base.toNat + 2 * b.i.toNat
    let r := frame (frameDraws s.draws) s.cfg e (bufRead s.buf w) (bufRead s.buf (w + 1))
    ∃ t, step s = .next t ∧ t.draws = s.draws + 1 ∧ t.cfg = s.cfg ∧ t.pending = rest ∧
      t.port = s.port ∧
      t.observed = (if b.i.toNat + 1 = b.count.toNat then .response b.call 0x0000000000#40 :: s.observed
        else s.observed) ∧
      bufRead t.buf w = r.out.left ∧ bufRead t.buf (w + 1) = r.out.right ∧
      (∀ a, a < 4 * w ∨ 4 * w + 8 ≤ a → readByte t.buf a = readByte s.buf a) ∧
      t.mode = .ready { r.engine with
        busy := if b.i.toNat + 1 = b.count.toNat then none else some { b with i := b.i + 1#16 } }

/-- R74: however long the machine runs, and whatever reaches it meanwhile (commands of both agents, host accesses,
`RESET`, turns of the datapath), a byte of `BUF` changes only by a host write of its word or by a block whose
range holds it: neither the block in progress nor any `PROC` served writes a byte outside its range. What is
pending behind the events that the run took may be anything. -/
def Obligations.BlockStaysInItsRange : Prop :=
  ∀ (s t : State) (k a : Nat), (∀ b, s.busy = some b → OutsideBlock a b.base b.count) →
    run k s = .next t → (∀ ev ∈ taken s t, LeavesByte a ev) → readByte t.buf a = readByte s.buf a

/-- 95_test_vectors 1.3, R271: an engine that stores only zeros, given zeros, gives zeros and stores only zeros, for any
finite parameters whose read offsets are finite. -/
def Obligations.SilenceStaysSilent : Prop :=
  ∀ (d : Draws) (cfg : Config) (e : Engine) (inL inR : F32), e.Ok cfg → e.Silent →
    (∀ k, Fp.isFinite (e.params.get k) = true) → Fp.isZero inL = true → Fp.isZero inR = true →
    Fp.isFinite (excursion ((d.shift 10).shift 30) cfg (snapshot e) e.sampleRate e.phase).left = true →
    Fp.isFinite (excursion ((d.shift 10).shift 30) cfg (snapshot e) e.sampleRate e.phase).right = true →
    let r := frame d cfg e inL inR
    Fp.isZero r.out.left = true ∧ Fp.isZero r.out.right = true ∧ r.engine.Silent
end

