-- ==== Sys2Proof/Laws/State.lean ====
section
/-! SUPPORT. What each named update changes and what it leaves: one lemma per field per update. -/

namespace Sys2Proof.Machine

/-! ### `deliver`, `respond`, `raise`: only `observed` -/

section
variable (c : Call) (st : Status) (data : BitVec 32) (s : State)

@[simp] theorem deliver_cfg : (deliver c st data s).cfg = s.cfg := rfl
@[simp] theorem deliver_mode : (deliver c st data s).mode = s.mode := rfl
@[simp] theorem deliver_buf : (deliver c st data s).buf = s.buf := rfl
@[simp] theorem deliver_pending : (deliver c st data s).pending = s.pending := rfl
@[simp] theorem deliver_port : (deliver c st data s).port = s.port := rfl
@[simp] theorem deliver_draws : (deliver c st data s).draws = s.draws := rfl
@[simp] theorem deliver_observed :
    (deliver c st data s).observed = .response c (responseWord st data) :: s.observed := rfl

@[simp] theorem respond_cfg : (respond st data s).cfg = s.cfg := rfl
@[simp] theorem respond_mode : (respond st data s).mode = s.mode := rfl
@[simp] theorem respond_buf : (respond st data s).buf = s.buf := rfl
@[simp] theorem respond_pending : (respond st data s).pending = s.pending := rfl
@[simp] theorem respond_port : (respond st data s).port = s.port := rfl
@[simp] theorem respond_draws : (respond st data s).draws = s.draws := rfl
@[simp] theorem respond_observed :
    (respond st data s).observed = .response s.port (responseWord st data) :: s.observed := rfl

@[simp] theorem raise_cfg : (raise st s).cfg = s.cfg := rfl
@[simp] theorem raise_mode : (raise st s).mode = s.mode := rfl
@[simp] theorem raise_buf : (raise st s).buf = s.buf := rfl
@[simp] theorem raise_pending : (raise st s).pending = s.pending := rfl
@[simp] theorem raise_port : (raise st s).port = s.port := rfl
@[simp] theorem raise_draws : (raise st s).draws = s.draws := rfl
@[simp] theorem raise_observed :
    (raise st s).observed = .response s.port (responseWord st 0#32) :: s.observed := rfl
end

/-! ### `busy` -/

@[simp] theorem busy_uninit : Mode.busy .uninit = none := rfl
@[simp] theorem busy_ready (e : Engine) : Mode.busy (.ready e) = e.busy := rfl

theorem state_busy (s : State) : s.busy = s.mode.busy := rfl

/-! ### The end and the acceptance of a block -/

section
variable (e : Engine) (b : Block) (s : State)

@[simp] theorem acceptBlock_cfg : (acceptBlock e b s).cfg = s.cfg := rfl
@[simp] theorem acceptBlock_mode : (acceptBlock e b s).mode = .ready { e with busy := some b } := rfl
@[simp] theorem acceptBlock_buf : (acceptBlock e b s).buf = s.buf := rfl
@[simp] theorem acceptBlock_pending : (acceptBlock e b s).pending = s.pending := rfl
@[simp] theorem acceptBlock_port : (acceptBlock e b s).port = s.port := rfl
@[simp] theorem acceptBlock_draws : (acceptBlock e b s).draws = s.draws := rfl
@[simp] theorem acceptBlock_observed : (acceptBlock e b s).observed = s.observed := rfl

@[simp] theorem finishBlock_cfg : (finishBlock e b s).cfg = s.cfg := rfl
@[simp] theorem finishBlock_mode : (finishBlock e b s).mode = .ready { e with busy := none } := rfl
@[simp] theorem finishBlock_buf : (finishBlock e b s).buf = s.buf := rfl
@[simp] theorem finishBlock_pending : (finishBlock e b s).pending = s.pending := rfl
@[simp] theorem finishBlock_port : (finishBlock e b s).port = s.port := rfl
@[simp] theorem finishBlock_draws : (finishBlock e b s).draws = s.draws := rfl
@[simp] theorem finishBlock_observed :
    (finishBlock e b s).observed = .response b.call (responseWord .ok 0#32) :: s.observed := rfl
end

/-! ### `RESET` -/

section
variable (s : State)

@[simp] theorem resetEvent_cfg : (resetEvent s).cfg = s.cfg := rfl
@[simp] theorem resetEvent_mode : (resetEvent s).mode = .uninit := rfl
@[simp] theorem resetEvent_buf : (resetEvent s).buf = s.buf := rfl
@[simp] theorem resetEvent_pending : (resetEvent s).pending = s.pending := rfl
@[simp] theorem resetEvent_port : (resetEvent s).port = s.port := rfl
@[simp] theorem resetEvent_observed : (resetEvent s).observed = s.observed := rfl
@[simp] theorem resetEvent_draws : (resetEvent s).draws = s.draws := rfl
end

/-! ### Free values -/

@[simp] theorem shift_nan (d : Draws) (n k : Nat) : (d.shift n).nan k = d.nan (n + k) := rfl
@[simp] theorem shift_read (d : Draws) (n k : Nat) : (d.shift n).read k = d.read (n + k) := rfl

/-! ### Lines -/

section
variable (l : Line) (v : F32)

@[simp] theorem dlWrite_cap : (dlWrite l v).cap = l.cap := rfl
@[simp] theorem dlWrite_size : (dlWrite l v).size = l.size := rfl
@[simp] theorem dlWrite_mask : (dlWrite l v).mask = l.mask := rfl
@[simp] theorem dlWrite_cur : (dlWrite l v).cur = l.cur := rfl
@[simp] theorem dlWrite_buf : (dlWrite l v).buf = ramWrite l.buf l.cur v := rfl

@[simp] theorem dlAdvance_cap : (dlAdvance l).cap = l.cap := rfl
@[simp] theorem dlAdvance_size : (dlAdvance l).size = l.size := rfl
@[simp] theorem dlAdvance_mask : (dlAdvance l).mask = l.mask := rfl
@[simp] theorem dlAdvance_cur : (dlAdvance l).cur = (l.cur + 1) &&& l.mask := rfl
@[simp] theorem dlAdvance_buf : (dlAdvance l).buf = l.buf := rfl

@[simp] theorem dlIndex_dlWrite (k : Int) : dlIndex (dlWrite l v) k = dlIndex l k := rfl
end

section
variable (ls : Vector Line 12) (i : Fin 12) (v : F32)

/-- The line written. -/
@[simp] theorem get_lineWrite_same : (lineWrite ls i v).get i = dlWrite (ls.get i) v := by
  simp [lineWrite, Vector.get_eq_getElem]

/-- Every other line is as before. -/
theorem get_lineWrite_ne {j : Fin 12} (h : i ≠ j) : (lineWrite ls i v).get j = ls.get j := by
  have : i.val ≠ j.val := fun hv => h (Fin.ext hv)
  simp [lineWrite, Vector.get_eq_getElem, Vector.getElem_set_ne, this]

@[simp] theorem get_advanceLines (j : Fin 12) : (advanceLines ls).get j = dlAdvance (ls.get j) := by
  simp [advanceLines, Vector.get_eq_getElem]
end

/-! ### The stages of a frame -/

section
variable (e : Engine) (v : F32)

@[simp] theorem pdWrite_preDelay : (pdWrite e v).preDelay = ramWrite e.preDelay e.pdW v := rfl
@[simp] theorem pdWrite_pdLen : (pdWrite e v).pdLen = e.pdLen := rfl
@[simp] theorem pdWrite_pdW : (pdWrite e v).pdW = e.pdW := rfl
@[simp] theorem pdWrite_lines : (pdWrite e v).lines = e.lines := rfl
@[simp] theorem pdWrite_lp1 : (pdWrite e v).lp1 = e.lp1 := rfl
@[simp] theorem pdAdvance_pdW : (pdAdvance e).pdW = (e.pdW + 1) % e.pdLen := rfl
@[simp] theorem pdAdvance_preDelay : (pdAdvance e).preDelay = e.preDelay := rfl
@[simp] theorem pdAdvance_lines : (pdAdvance e).lines = e.lines := rfl
end

section
variable (d : Draws) (cfg : Config) (ps : Snapshot) (e : Engine) (inL inR : F32)

@[simp] theorem frameInput_lines : (frameInput d ps e inL inR).lines = e.lines := rfl
@[simp] theorem frameInput_sampleRate : (frameInput d ps e inL inR).sampleRate = e.sampleRate := rfl
@[simp] theorem frameInput_params : (frameInput d ps e inL inR).params = e.params := rfl
@[simp] theorem frameInput_tapOff : (frameInput d ps e inL inR).tapOff = e.tapOff := rfl
@[simp] theorem frameInput_preDelay :
    (frameInput d ps e inL inR).preDelay = ramWrite e.preDelay e.pdW (mono (d.nan 0) inL inR) := rfl
@[simp] theorem frameInput_pdLen : (frameInput d ps e inL inR).pdLen = e.pdLen := rfl
@[simp] theorem frameInput_pdW : (frameInput d ps e inL inR).pdW = e.pdW := rfl
@[simp] theorem frameInput_lp2 : (frameInput d ps e inL inR).lp2 = e.lp2 := rfl
@[simp] theorem frameInput_lp3 : (frameInput d ps e inL inR).lp3 = e.lp3 := rfl
@[simp] theorem frameInput_phase : (frameInput d ps e inL inR).phase = e.phase := rfl
@[simp] theorem frameInput_busy : (frameInput d ps e inL inR).busy = e.busy := rfl

@[simp] theorem frameTank_sampleRate : (frameTank d cfg ps e).sampleRate = e.sampleRate := rfl
@[simp] theorem frameTank_params : (frameTank d cfg ps e).params = e.params := rfl
@[simp] theorem frameTank_tapOff : (frameTank d cfg ps e).tapOff = e.tapOff := rfl
@[simp] theorem frameTank_preDelay : (frameTank d cfg ps e).preDelay = e.preDelay := rfl
@[simp] theorem frameTank_pdLen : (frameTank d cfg ps e).pdLen = e.pdLen := rfl
@[simp] theorem frameTank_pdW : (frameTank d cfg ps e).pdW = e.pdW := rfl
@[simp] theorem frameTank_lp1 : (frameTank d cfg ps e).lp1 = e.lp1 := rfl
@[simp] theorem frameTank_phase : (frameTank d cfg ps e).phase = e.phase := rfl
@[simp] theorem frameTank_busy : (frameTank d cfg ps e).busy = e.busy := rfl

@[simp] theorem frameAdvance_sampleRate : (frameAdvance d ps e).sampleRate = e.sampleRate := rfl
@[simp] theorem frameAdvance_params : (frameAdvance d ps e).params = e.params := rfl
@[simp] theorem frameAdvance_lines : (frameAdvance d ps e).lines = advanceLines e.lines := rfl
@[simp] theorem frameAdvance_tapOff : (frameAdvance d ps e).tapOff = e.tapOff := rfl
@[simp] theorem frameAdvance_preDelay : (frameAdvance d ps e).preDelay = e.preDelay := rfl
@[simp] theorem frameAdvance_pdLen : (frameAdvance d ps e).pdLen = e.pdLen := rfl
@[simp] theorem frameAdvance_pdW : (frameAdvance d ps e).pdW = (e.pdW + 1) % e.pdLen := rfl
@[simp] theorem frameAdvance_lp1 : (frameAdvance d ps e).lp1 = e.lp1 := rfl
@[simp] theorem frameAdvance_lp2 : (frameAdvance d ps e).lp2 = e.lp2 := rfl
@[simp] theorem frameAdvance_lp3 : (frameAdvance d ps e).lp3 = e.lp3 := rfl
@[simp] theorem frameAdvance_busy : (frameAdvance d ps e).busy = e.busy := rfl
@[simp] theorem frameAdvance_phase :
    (frameAdvance d ps e).phase =
      phaseAdvance d e.phase (ps.param .excursionRate) e.sampleRate := rfl

@[simp] theorem frame_sampleRate : (frame d cfg e inL inR).engine.sampleRate = e.sampleRate := rfl
@[simp] theorem frame_params : (frame d cfg e inL inR).engine.params = e.params := rfl
@[simp] theorem frame_tapOff : (frame d cfg e inL inR).engine.tapOff = e.tapOff := rfl
@[simp] theorem frame_pdLen : (frame d cfg e inL inR).engine.pdLen = e.pdLen := rfl
@[simp] theorem frame_pdW : (frame d cfg e inL inR).engine.pdW = (e.pdW + 1) % e.pdLen := rfl
@[simp] theorem frame_busy : (frame d cfg e inL inR).engine.busy = e.busy := rfl
@[simp] theorem frame_preDelay :
    (frame d cfg e inL inR).engine.preDelay =
      ramWrite e.preDelay e.pdW (mono (d.nan 0) inL inR) := rfl
end

end Sys2Proof.Machine
end

