-- ==== Sys2Proof/Laws/Memory.lean ====
section
/-! SUPPORT. The laws of the cells, the RAMs and the sample buffer: read after write, and every write keeps
the canonical form. -/

namespace Sys2Proof.Machine

section
variable {w : Nat}

theorem cellRead_of_lt {cells : List (Nat × BitVec w)} {a : Nat} (h : ∀ c ∈ cells, a < c.1) :
    cellRead cells a = 0#w := by
  induction cells with
  | nil => rfl
  | cons c rest ih =>
    obtain ⟨k, u⟩ := c
    have hk : a < k := h (k, u) (by simp)
    rw [cellRead, if_neg (by omega)]
    exact ih fun c hc => h c (by simp [hc])

/-- Reading the cell written. -/
theorem cellRead_cellWrite_same {cells : List (Nat × BitVec w)}
    (hs : cells.Pairwise fun c d => c.1 < d.1) (a : Nat) (v : BitVec w) :
    cellRead (cellWrite cells a v) a = v := by
  induction cells with
  | nil =>
    by_cases hv : v = 0#w <;> simp [cellWrite, cellEntry, hv, cellRead]
  | cons c rest ih =>
    obtain ⟨k, u⟩ := c
    obtain ⟨hk, hrest⟩ := List.pairwise_cons.1 hs
    simp only [cellWrite]
    split_ifs with h1 h2
    · by_cases hv : v = 0#w
      · simp only [cellEntry, hv, if_true, List.nil_append]
        refine cellRead_of_lt fun c hc => ?_
        rcases List.mem_cons.1 hc with rfl | hc
        · exact h1
        · exact h1.trans (hk c hc)
      · simp [cellEntry, hv, cellRead]
    · subst h2
      by_cases hv : v = 0#w
      · simp only [cellEntry, hv, if_true, List.nil_append]
        exact cellRead_of_lt fun c hc => hk c hc
      · simp [cellEntry, hv, cellRead]
    · simp only [cellRead, if_neg h2]
      exact ih hrest

/-- Reading any other cell. -/
theorem cellRead_cellWrite_ne (cells : List (Nat × BitVec w)) {a b : Nat} (h : b ≠ a) (v : BitVec w) :
    cellRead (cellWrite cells a v) b = cellRead cells b := by
  have entry : ∀ l : List (Nat × BitVec w), cellRead (cellEntry a v ++ l) b = cellRead l b := by
    intro l
    by_cases hv : v = 0#w <;> simp [cellEntry, hv, cellRead, h]
  induction cells with
  | nil => simpa [cellWrite] using entry []
  | cons c rest ih =>
    obtain ⟨k, u⟩ := c
    simp only [cellWrite]
    split_ifs with h1 h2
    · exact entry _
    · rw [entry]
      subst h2
      simp [cellRead, h]
    · simp only [cellRead, ih]

theorem mem_cellEntry {a : Nat} {v : BitVec w} {c : Nat × BitVec w} (h : c ∈ cellEntry a v) :
    c.1 = a ∧ c.2 ≠ 0#w := by
  unfold cellEntry at h
  split_ifs at h with hv
  · simp at h
  · simp only [List.mem_singleton] at h
    subst h
    exact ⟨rfl, hv⟩

/-- A cell of the list after a write is the cell written or one of before. -/
theorem mem_cellWrite {cells : List (Nat × BitVec w)} {a : Nat} {v : BitVec w} {c : Nat × BitVec w}
    (h : c ∈ cellWrite cells a v) : (c.1 = a ∧ c.2 ≠ 0#w) ∨ c ∈ cells := by
  induction cells with
  | nil => exact .inl (mem_cellEntry h)
  | cons d rest ih =>
    obtain ⟨k, u⟩ := d
    simp only [cellWrite] at h
    split_ifs at h
    · rcases List.mem_append.1 h with h | h
      · exact .inl (mem_cellEntry h)
      · exact .inr h
    · rcases List.mem_append.1 h with h | h
      · exact .inl (mem_cellEntry h)
      · exact .inr (List.mem_cons_of_mem _ h)
    · rcases List.mem_cons.1 h with rfl | h
      · exact .inr List.mem_cons_self
      · exact (ih h).imp id (List.mem_cons_of_mem _)

theorem pairwise_cellWrite {cells : List (Nat × BitVec w)}
    (hs : cells.Pairwise fun c d => c.1 < d.1) (a : Nat) (v : BitVec w) :
    (cellWrite cells a v).Pairwise fun c d => c.1 < d.1 := by
  have entry : ∀ l : List (Nat × BitVec w), l.Pairwise (fun c d => c.1 < d.1) → (∀ c ∈ l, a < c.1) →
      (cellEntry a v ++ l).Pairwise fun c d => c.1 < d.1 := by
    intro l hl ha
    by_cases hv : v = 0#w
    · simpa [cellEntry, hv] using hl
    · simpa [cellEntry, hv] using ⟨fun k u h => ha (k, u) h, hl⟩
  induction cells with
  | nil => simpa [cellWrite] using entry [] List.Pairwise.nil (by simp)
  | cons c rest ih =>
    obtain ⟨k, u⟩ := c
    obtain ⟨hk, hrest⟩ := List.pairwise_cons.1 hs
    simp only [cellWrite]
    split_ifs with h1 h2
    · refine entry _ hs fun c hc => ?_
      rcases List.mem_cons.1 hc with rfl | hc
      · exact h1
      · exact h1.trans (hk c hc)
    · subst h2
      exact entry _ hrest hk
    · refine List.pairwise_cons.2 ⟨fun c hc => ?_, ih hrest⟩
      rcases mem_cellWrite hc with h | h
      · omega
      · exact hk c h

/-- A write below the bound keeps the canonical form. -/
theorem cellWrite_wf {bound : Nat} {cells : List (Nat × BitVec w)} (h : cellsWf bound cells) {a : Nat}
    (ha : a < bound) (v : BitVec w) : cellsWf bound (cellWrite cells a v) := by
  obtain ⟨h1, h2, h3⟩ := h
  refine ⟨pairwise_cellWrite h1 a v, fun c hc => ?_, fun c hc => ?_⟩
  · exact (mem_cellWrite hc).elim (fun h => h.2) (h2 c)
  · exact (mem_cellWrite hc).elim (fun h => h.1 ▸ ha) (h3 c)
end

/-! ### RAMs -/

theorem ramRead_ramWrite_same {bound : Nat} {r : Ram} (h : cellsWf bound r) (j : Nat) (v : F32) :
    ramRead (ramWrite r j v) j = v := cellRead_cellWrite_same h.1 j v

theorem ramRead_ramWrite_ne (r : Ram) {j k : Nat} (h : k ≠ j) (v : F32) :
    ramRead (ramWrite r j v) k = ramRead r k := cellRead_cellWrite_ne r h v

theorem ramWrite_wf {bound : Nat} {r : Ram} (h : cellsWf bound r) {j : Nat} (hj : j < bound) (v : F32) :
    cellsWf bound (ramWrite r j v) := cellWrite_wf h hj v

@[simp] theorem ramRead_nil (j : Nat) : ramRead [] j = Fp.posZero := rfl

/-! ### The sample buffer -/

theorem readByte_writeByte_same {bound : Nat} {m : Memory} (h : cellsWf bound m) (a : Nat)
    (v : BitVec 8) : readByte (writeByte m a v) a = v := cellRead_cellWrite_same h.1 a v

theorem readByte_writeByte_ne (m : Memory) {a b : Nat} (h : b ≠ a) (v : BitVec 8) :
    readByte (writeByte m a v) b = readByte m b := cellRead_cellWrite_ne m h v

theorem writeByte_wf {bound : Nat} {m : Memory} (h : cellsWf bound m) {a : Nat} (ha : a < bound)
    (v : BitVec 8) : cellsWf bound (writeByte m a v) := cellWrite_wf h ha v

/-- A word write keeps the canonical form. -/
theorem bufWrite_wf {words : Nat} {m : Memory} (h : Memory.wf words m) {w : Nat} (hw : w < words)
    (v : F32) : Memory.wf words (bufWrite m w v) := by
  unfold bufWrite
  exact writeByte_wf (writeByte_wf (writeByte_wf (writeByte_wf h (by omega) _) (by omega) _)
    (by omega) _) (by omega) _

/-- A word write leaves every byte outside the word. -/
theorem readByte_bufWrite_ne (m : Memory) {w a : Nat} (h : a < 4 * w ∨ 4 * w + 4 ≤ a) (v : F32) :
    readByte (bufWrite m w v) a = readByte m a := by
  unfold bufWrite
  rw [readByte_writeByte_ne _ (by omega), readByte_writeByte_ne _ (by omega),
    readByte_writeByte_ne _ (by omega), readByte_writeByte_ne _ (by omega)]

/-- A word write leaves every other word. -/
theorem bufRead_bufWrite_ne (m : Memory) {w x : Nat} (h : x ≠ w) (v : F32) :
    bufRead (bufWrite m w v) x = bufRead m x := by
  unfold bufRead
  rw [readByte_bufWrite_ne _ (by omega), readByte_bufWrite_ne _ (by omega),
    readByte_bufWrite_ne _ (by omega), readByte_bufWrite_ne _ (by omega)]

theorem bytes_append (v : F32) :
    v.extractLsb' 24 8 ++ v.extractLsb' 16 8 ++ v.extractLsb' 8 8 ++ v.extractLsb' 0 8 = v := by
  ext i hi
  simp only [BitVec.getElem_append, BitVec.getElem_extractLsb']
  rw [← BitVec.getLsbD_eq_getElem]
  split_ifs <;> (congr 1; omega)

/-- Reading the word written. -/
theorem bufRead_bufWrite_same {bound : Nat} {m : Memory} (h : cellsWf bound m) {w : Nat}
    (hw : 4 * w + 4 ≤ bound) (v : F32) : bufRead (bufWrite m w v) w = v := by
  have h0 : cellsWf bound (writeByte m (4 * w) (v.extractLsb' 0 8)) := writeByte_wf h (by omega) _
  have h1 := writeByte_wf h0 (a := 4 * w + 1) (by omega) (v.extractLsb' 8 8)
  have h2 := writeByte_wf h1 (a := 4 * w + 2) (by omega) (v.extractLsb' 16 8)
  have b3 : readByte (bufWrite m w v) (4 * w + 3) = v.extractLsb' 24 8 :=
    readByte_writeByte_same h2 _ _
  have b2 : readByte (bufWrite m w v) (4 * w + 2) = v.extractLsb' 16 8 := by
    unfold bufWrite
    rw [readByte_writeByte_ne _ (by omega)]
    exact readByte_writeByte_same h1 _ _
  have b1 : readByte (bufWrite m w v) (4 * w + 1) = v.extractLsb' 8 8 := by
    unfold bufWrite
    rw [readByte_writeByte_ne _ (by omega), readByte_writeByte_ne _ (by omega)]
    exact readByte_writeByte_same h0 _ _
  have b0 : readByte (bufWrite m w v) (4 * w) = v.extractLsb' 0 8 := by
    unfold bufWrite
    rw [readByte_writeByte_ne _ (by omega), readByte_writeByte_ne _ (by omega),
      readByte_writeByte_ne _ (by omega)]
    exact readByte_writeByte_same h _ _
  unfold bufRead
  rw [b3, b2, b1, b0]
  exact bytes_append v

end Sys2Proof.Machine
end

