-- ==== Sys2Proof/Laws/Numerics.lean ====
section
/-! SUPPORT. The laws of the integer functions (R10, R11) and of the parts of a binary32: what `pack`,
`quietNan`, `roundMag` and each operation can give. -/

namespace Sys2Proof.Machine

/-! ### Integers -/

/-- `nextPow2` is a power of two. -/
theorem nextPow2_eq_pow (n : Nat) : ∃ k, nextPow2 n = 2 ^ k := by
  unfold nextPow2
  split_ifs
  · exact ⟨0, rfl⟩
  · exact ⟨_, rfl⟩

/-- `nextPow2(n)` is at least `n`. -/
theorem le_nextPow2 (n : Nat) : n ≤ nextPow2 n := by
  unfold nextPow2
  split_ifs with h
  · exact h
  · have : n - 1 < 2 ^ ((n - 1).log2 + 1) := Nat.lt_log2_self
    omega

theorem nextPow2_pos (n : Nat) : 0 < nextPow2 n := by
  obtain ⟨k, hk⟩ := nextPow2_eq_pow n
  rw [hk]
  positivity

/-- Under a mask `2^k − 1`, `a & m` is the mathematical remainder of R10. -/
theorem maskInt_pow (a : Int) (k : Nat) : (maskInt a (2 ^ k - 1) : Int) = a % 2 ^ k := by
  cases a with
  | ofNat n => simp [maskInt, Nat.and_two_pow_sub_one_eq_mod]
  | negSucc n =>
    have hlt : n % 2 ^ k < 2 ^ k := Nat.mod_lt _ (by positivity)
    have hx : (2 ^ k - 1) ^^^ (n % 2 ^ k) = 2 ^ k - 1 - n % 2 ^ k := by
      have := BitVec.toNat_not (x := BitVec.ofNat k n)
      rw [BitVec.not_def, BitVec.toNat_xor, BitVec.toNat_allOnes, BitVec.toNat_ofNat] at this
      exact this
    have hm : maskInt (Int.negSucc n) (2 ^ k - 1) = 2 ^ k - 1 - n % 2 ^ k := by
      simp only [maskInt]
      rw [Nat.and_comm, Nat.and_two_pow_sub_one_eq_mod, hx]
    rw [hm, Int.negSucc_emod n (by positivity)]
    push_cast [Nat.sub_sub, show 1 + n % 2 ^ k ≤ 2 ^ k by omega]
    ring

/-! ### Parts of a binary32 -/

namespace Fp

theorem mag_lt (x : F32) : mag x < 2 ^ 31 := Nat.mod_lt _ (by norm_num)

theorem mag_pack {neg : Bool} {m : Nat} (h : m < 2 ^ 31) : mag (pack neg m) = m := by
  unfold mag pack
  rw [BitVec.toNat_ofNat]
  cases neg <;> simp <;> omega

theorem sign_pack {neg : Bool} {m : Nat} (h : m < 2 ^ 31) : sign (pack neg m) = neg := by
  unfold sign pack
  rw [BitVec.msb_eq_decide, BitVec.toNat_ofNat]
  cases neg <;> simp <;> omega

theorem toNat_eq (x : F32) : x.toNat = (if sign x then 2 ^ 31 else 0) + mag x := by
  unfold sign mag
  rw [BitVec.msb_eq_decide]
  have := x.isLt
  by_cases h : 2 ^ 31 ≤ x.toNat
  · rw [if_pos (by simpa using h)]
    omega
  · rw [if_neg (by simpa using h)]
    omega

/-- A binary32 is its sign and its magnitude bits. -/
theorem pack_sign_mag (x : F32) : pack (sign x) (mag x) = x := by
  apply BitVec.eq_of_toNat_eq
  unfold pack
  rw [BitVec.toNat_ofNat, ← toNat_eq x]
  exact Nat.mod_eq_of_lt x.isLt

theorem ext_sign_mag {x y : F32} (hs : sign x = sign y) (hm : mag x = mag y) : x = y := by
  rw [← pack_sign_mag x, ← pack_sign_mag y, hs, hm]

/-- Every binary32 is a NaN, an infinity or finite, and only one of these. -/
theorem class_cases (x : F32) :
    (isNan x = true ∧ isInf x = false ∧ isFinite x = false) ∨
    (isNan x = false ∧ isInf x = true ∧ isFinite x = false) ∨
    (isNan x = false ∧ isInf x = false ∧ isFinite x = true) := by
  unfold isNan isInf isFinite
  rcases Nat.lt_trichotomy (mag x) infMag with h | h | h
  · exact .inr (.inr (by simp; omega))
  · exact .inr (.inl (by simp [h]))
  · exact .inl (by simp; omega)

theorem mag_quietNan (q : NanBits) : mag (quietNan q) = infMag + 2 ^ 22 + q.toNat % 2 ^ 22 := by
  apply mag_pack
  have : q.toNat % 2 ^ 22 < 2 ^ 22 := Nat.mod_lt _ (by norm_num)
  unfold infMag
  omega

@[simp] theorem isNan_quietNan (q : NanBits) : isNan (quietNan q) = true := by
  unfold isNan
  rw [mag_quietNan, decide_eq_true_eq]
  omega

theorem roundMag_le (num den : Nat) : roundMag num den ≤ infMag := Nat.min_le_right _ _

theorem roundMag_lt (num den : Nat) : roundMag num den < 2 ^ 31 :=
  lt_of_le_of_lt (roundMag_le num den) (by unfold infMag; norm_num)

@[simp] theorem roundMag_zero (den : Nat) : roundMag 0 den = 0 := by
  unfold roundMag
  simp

/-- A rounded value with its sign is no NaN. -/
theorem isNan_pack_roundMag (neg : Bool) (num den : Nat) : isNan (pack neg (roundMag num den)) = false := by
  unfold isNan
  rw [mag_pack (roundMag_lt num den), decide_eq_false_iff_not]
  exact not_lt.2 (roundMag_le num den)

theorem fneg_sign (a : F32) : sign (fneg a) = !sign a := by
  unfold sign fneg
  rw [BitVec.msb_xor, show (0x80000000#32).msb = true by decide, Bool.xor_true]

theorem fneg_mag (a : F32) : mag (fneg a) = mag a := by
  have key : ∀ i, i < 31 → (fneg a).getLsbD i = a.getLsbD i := by
    intro i hi
    unfold fneg
    rw [BitVec.getLsbD_xor]
    have : (0x80000000#32).getLsbD i = false := by
      have h : ∀ j : Fin 31, (0x80000000#32).getLsbD j = false := by decide
      exact h ⟨i, hi⟩
    simp [this]
  unfold mag
  apply Nat.eq_of_testBit_eq
  intro i
  rw [Nat.testBit_mod_two_pow, Nat.testBit_mod_two_pow]
  by_cases hi : i < 31
  · simpa [hi, BitVec.getLsbD] using key i hi
  · simp [hi]

theorem fneg_isNan (a : F32) : isNan (fneg a) = isNan a := by simp [isNan, fneg_mag]

theorem fneg_units (a : F32) : units (fneg a) = -units a := by
  unfold units
  rw [fneg_sign, fneg_mag]
  cases sign a <;> simp

/-! ### What each operation gives -/

/-- `fadd` on finite operands (R14). -/
theorem fadd_finite (q : NanBits) {a b : F32} (ha : isFinite a = true) (hb : isFinite b = true) :
    fadd q a b = if units a + units b = 0 then pack (sign a && sign b) 0 else ofUnits (units a + units b) := by
  rcases class_cases a with h | h | h <;> rcases class_cases b with k | k | k <;>
    simp_all [fadd]

/-- `fadd` with a NaN operand. -/
theorem fadd_nan (q : NanBits) {a b : F32} (h : (isNan a || isNan b) = true) : fadd q a b = quietNan q := by
  simp [fadd, h]

/-- The operand that `fsub` negates stays finite. -/
theorem isFinite_fneg (a : F32) : isFinite (fneg a) = isFinite a := by simp [isFinite, fneg_mag]

/-- `fmul` on finite operands (R14). -/
theorem fmul_finite (q : NanBits) {a b : F32} (ha : isFinite a = true) (hb : isFinite b = true) :
    fmul q a b =
      pack (sign a != sign b) (roundMag (magUnits (mag a) * magUnits (mag b)) (2 ^ 149)) := by
  rcases class_cases a with h | h | h <;> rcases class_cases b with k | k | k <;>
    simp_all [fmul]

/-- `fmul` with a NaN operand. -/
theorem fmul_nan (q : NanBits) {a b : F32} (h : (isNan a || isNan b) = true) : fmul q a b = quietNan q := by
  simp [fmul, h]

/-- `fdiv` of a finite value by a finite value that is not a zero (R14). -/
theorem fdiv_finite (q : NanBits) {a b : F32} (ha : isFinite a = true) (hb : isFinite b = true)
    (hz : isZero b = false) :
    fdiv q a b =
      pack (sign a != sign b) (roundMag (magUnits (mag a) * 2 ^ 149) (magUnits (mag b))) := by
  rcases class_cases a with h | h | h <;> rcases class_cases b with k | k | k <;>
    simp_all [fdiv]

theorem cos2pi_zero : cos2pi posZero = one := by simp [cos2pi]

theorem sin2pi_zero : sin2pi posZero = posZero := by simp [sin2pi]

end Fp

end Sys2Proof.Machine
end

