-- ==== Sys2Proof/Laws/DelayLine.lean ====
section
/-! SUPPORT. The laws of a delay line that satisfies its invariant (R129): the index map, and which operations
keep the invariant. -/

namespace Sys2Proof.Machine

theorem Line.Ok.cap_pos {l : Line} (h : l.Ok) : 0 < l.cap := by
  rw [h.cap_eq]
  exact nextPow2_pos _

theorem Line.Ok.cap_pow {l : Line} (h : l.Ok) : ∃ k, l.cap = 2 ^ k := by
  rw [h.cap_eq]
  exact nextPow2_eq_pow _

theorem Line.Ok.size_lt {l : Line} (h : l.Ok) : l.size < l.cap := by
  have := le_nextPow2 (l.size + 1)
  rw [h.cap_eq]
  omega

/-- The index map is the mathematical remainder: `(cur − k) mod cap` (R69). -/
theorem Line.Ok.index_eq {l : Line} (h : l.Ok) (k : Int) :
    (dlIndex l k : Int) = ((l.cur : Int) - k) % (l.cap : Int) := by
  obtain ⟨n, hn⟩ := h.cap_pow
  unfold dlIndex
  rw [h.mask_eq, hn, maskInt_pow]
  push_cast
  rfl

/-- Every access stays inside the RAM (R61). -/
theorem Line.Ok.index_lt {l : Line} (h : l.Ok) (k : Int) : dlIndex l k < l.cap := by
  have hp : (0 : Int) < l.cap := by exact_mod_cast h.cap_pos
  have := Int.emod_lt_of_pos ((l.cur : Int) - k) hp
  rw [← h.index_eq k] at this
  exact_mod_cast this

/-- `DL.ADVANCE` wraps at the capacity. -/
theorem Line.Ok.advance_cur {l : Line} (h : l.Ok) : (dlAdvance l).cur = (l.cur + 1) % l.cap := by
  obtain ⟨n, hn⟩ := h.cap_pow
  rw [dlAdvance_cur, h.mask_eq, hn, Nat.and_two_pow_sub_one_eq_mod]

theorem Line.Ok.write {l : Line} (h : l.Ok) (v : F32) : (dlWrite l v).Ok where
  size_pos := h.size_pos
  cap_eq := h.cap_eq
  mask_eq := h.mask_eq
  cur_lt := h.cur_lt
  buf_wf := ramWrite_wf h.buf_wf h.cur_lt v

theorem Line.Ok.advance {l : Line} (h : l.Ok) : (dlAdvance l).Ok where
  size_pos := h.size_pos
  cap_eq := h.cap_eq
  mask_eq := h.mask_eq
  cur_lt := by
    rw [h.advance_cur]
    exact Nat.mod_lt _ h.cap_pos
  buf_wf := h.buf_wf

/-- A length that `DL.INIT` does not reject gives a line that satisfies the invariant (R120). -/
theorem dlInit_ok {length : Nat} (h : lengthRejected length = false) : (dlInit length).Ok := by
  have h2 : 2 ≤ length := by
    simp only [lengthRejected, decide_eq_false_iff_not] at h
    omega
  have e : length - 1 + 1 = length := by omega
  refine ⟨by simp only [dlInit]; omega, by simp only [dlInit, e], rfl, ?_, ?_⟩
  · exact nextPow2_pos _
  · simp [dlInit, cellsWf]

/-- A tap read after a write: the cursor cell holds the sample written, every other cell what it held. -/
theorem Line.Ok.readTap_write {l : Line} (h : l.Ok) (v : F32) (k : Int) :
    dlReadTap (dlWrite l v) k = if dlIndex l k = l.cur then v else dlReadTap l k := by
  unfold dlReadTap
  rw [dlIndex_dlWrite, dlWrite_buf]
  split_ifs with hk
  · rw [hk]
    exact ramRead_ramWrite_same h.buf_wf _ _
  · exact ramRead_ramWrite_ne _ hk _

/-- A line write keeps the invariant of all twelve lines. -/
theorem lineWrite_ok {ls : Vector Line 12} (h : ∀ i, (ls.get i).Ok) (i : Fin 12) (v : F32) (j : Fin 12) :
    ((lineWrite ls i v).get j).Ok := by
  by_cases hij : i = j
  · subst hij
    rw [get_lineWrite_same]
    exact (h i).write v
  · rw [get_lineWrite_ne _ _ _ hij]
    exact h j

end Sys2Proof.Machine
end

