-- ==== Sys2Proof/Laws/Exec.lean ====
section
/-! SUPPORT. What each meaning and each part of a step can answer, said once. -/

namespace Sys2Proof.Machine

/-- What `SETP` can answer. -/
theorem execSetp_cases (id : BitVec 8) (v : F32) (s : State) :
    (s.mode = .uninit ∧ execSetp id v s = .next (raise .stateError s)) ∨
    ∃ e, s.mode = .ready e ∧
      ((unknownId id = true ∧ execSetp id v s = .next (raise .parameterError s)) ∨
       (unknownId id = false ∧ execSetp id v s = .next (respond .ok 0#32
          { s with mode := .ready { e with params := paramWrite e.params id v } }))) := by
  unfold execSetp
  cases hm : s.mode with
  | uninit => exact .inl ⟨rfl, rfl⟩
  | ready e =>
    refine .inr ⟨e, rfl, ?_⟩
    cases hu : unknownId id
    · exact .inr ⟨rfl, rfl⟩
    · exact .inl ⟨rfl, rfl⟩

/-- What `GETP` can answer. -/
theorem execGetp_cases (id : BitVec 8) (s : State) :
    (s.mode = .uninit ∧ execGetp id s = .next (raise .stateError s)) ∨
    ∃ e, s.mode = .ready e ∧
      ((unknownId id = true ∧ execGetp id s = .next (raise .parameterError s)) ∨
       (unknownId id = false ∧ execGetp id s = .next (respond .ok (paramRead e.params id) s))) := by
  unfold execGetp
  cases hm : s.mode with
  | uninit => exact .inl ⟨rfl, rfl⟩
  | ready e =>
    refine .inr ⟨e, rfl, ?_⟩
    cases hu : unknownId id
    · exact .inr ⟨rfl, rfl⟩
    · exact .inl ⟨rfl, rfl⟩

/-- What `INIT` can answer. -/
theorem execInit_cases (sr : BitVec 32) (s : State) :
    (s.busy ≠ none ∧ execInit sr s = .next (raise .stateError s)) ∨
    (s.busy = none ∧ checkRate s.cfg sr = false ∧
      execInit sr s = .next (raise .configurationError s)) ∨
    (s.busy = none ∧ checkRate s.cfg sr = true ∧
      execInit sr s = .next (respond .ok 0#32 { s with mode := .ready (construct s.cfg sr) })) := by
  unfold execInit
  cases hb : s.busy with
  | some b => exact .inl ⟨by simp, rfl⟩
  | none =>
    cases hc : checkRate s.cfg sr
    · exact .inr (.inl ⟨rfl, rfl, rfl⟩)
    · exact .inr (.inr ⟨rfl, rfl, rfl⟩)

/-- What `PROC` can answer. -/
theorem execProc_cases (count : BitVec 16) (base : BitVec 32) (s : State) :
    (s.mode = .uninit ∧ execProc count base s = .next (raise .stateError s)) ∨
    ∃ e, s.mode = .ready e ∧
      ((e.busy ≠ none ∧ execProc count base s = .next (raise .stateError s)) ∨
       (e.busy = none ∧ count = 0#16 ∧ execProc count base s = .next (respond .ok 0#32 s)) ∨
       (e.busy = none ∧ count ≠ 0#16 ∧ rangeOk s.cfg base count = false ∧
          execProc count base s = .fault .blockOutsideBuf) ∨
       (e.busy = none ∧ count ≠ 0#16 ∧ rangeOk s.cfg base count = true ∧
          execProc count base s =
            .next (acceptBlock e { base := base, count := count, i := 0#16, call := s.port } s))) := by
  unfold execProc
  cases hm : s.mode with
  | uninit => exact .inl ⟨rfl, rfl⟩
  | ready e =>
    refine .inr ⟨e, rfl, ?_⟩
    cases hb : e.busy with
    | some b => exact .inl ⟨by simp, by simp [hb]⟩
    | none =>
      by_cases hc : count = 0#16
      · exact .inr (.inl ⟨rfl, hc, by simp [hb, hc]⟩)
      · cases hr : rangeOk s.cfg base count
        · exact .inr (.inr (.inl ⟨rfl, hc, rfl, by simp [hb, hc]⟩))
        · exact .inr (.inr (.inr ⟨rfl, hc, rfl, by simp [hb, hc]⟩))

/-- What the datapath's turn can give. -/
theorem runFrame_cases (s : State) :
    (s.busy = none ∧ runFrame s = .next s) ∨
    ∃ e b, s.mode = .ready e ∧ e.busy = some b ∧
      ((b.count.toNat ≤ b.i.toNat ∧ runFrame s = .next (finishBlock e b s)) ∨
       (b.i.toNat < b.count.toNat ∧ s.hasWord (rightWord b) = true ∧
          runFrame s = .next (blockFrame e b s)) ∨
       (b.i.toNat < b.count.toNat ∧ s.hasWord (rightWord b) = false ∧
          runFrame s = .fault .noSuchWord)) := by
  unfold runFrame State.busy
  cases hm : s.mode with
  | uninit => exact .inl ⟨rfl, rfl⟩
  | ready e =>
    cases hb : e.busy with
    | none => exact .inl ⟨by simp [hb], by simp [hb]⟩
    | some b =>
      refine .inr ⟨e, b, rfl, hb, ?_⟩
      by_cases hc : b.count.toNat ≤ b.i.toNat
      · exact .inl ⟨hc, by simp [hb, hc]⟩
      · cases hw : s.hasWord (rightWord b)
        · exact .inr (.inr ⟨by omega, rfl, by simp [hb, hc, hw]⟩)
        · exact .inr (.inl ⟨by omega, rfl, by simp [hb, hc, hw]⟩)

/-- The words that the block owns, written out (R74). -/
theorem owns_iff (s : State) (w : Nat) : s.owns w = true ↔ BlockHolds s w := by
  unfold State.owns State.busy BlockHolds
  cases s.mode with
  | uninit => simp [Mode.busy]
  | ready e => cases he : e.busy <;> simp [Mode.busy, he]

/-- What a host write can give. -/
theorem hostWrite_cases (word : BitVec 32) (v : F32) (s : State) :
    (s.hasWord word.toNat = false ∧ hostWrite word v s = .fault .noSuchWord) ∨
    (s.hasWord word.toNat = true ∧ s.owns word.toNat = true ∧ hostWrite word v s = .fault .hostTouchedBlock) ∨
    (s.hasWord word.toNat = true ∧ s.owns word.toNat = false ∧
      hostWrite word v s = .next { s with buf := bufWrite s.buf word.toNat v }) := by
  unfold hostWrite
  cases s.hasWord word.toNat <;> cases s.owns word.toNat <;> simp

/-- What a host read can give. -/
theorem hostRead_cases (word : BitVec 32) (s : State) :
    (s.hasWord word.toNat = false ∧ hostRead word s = .fault .noSuchWord) ∨
    (s.hasWord word.toNat = true ∧ s.owns word.toNat = true ∧ hostRead word s = .fault .hostTouchedBlock) ∨
    (s.hasWord word.toNat = true ∧ s.owns word.toNat = false ∧
      hostRead word s =
        .next { s with observed := .bufWord word (bufRead s.buf word.toNat) :: s.observed }) := by
  unfold hostRead
  cases s.hasWord word.toNat <;> cases s.owns word.toNat <;> simp

/-- What a step can be. -/
theorem step_cases (s : State) :
    (s.pending = [] ∧ step s = runFrame s) ∨
    ∃ ev rest, s.pending = ev :: rest ∧
      ((∃ c, ev = .command c ∧ s.waits c.agent = true ∧ step s = runFrame s) ∨
       (∃ c, ev = .command c ∧ s.waits c.agent = false ∧ step s = serve c { s with pending := rest }) ∨
       (ev = .frame ∧ step s = runFrame { s with pending := rest }) ∨
       (∃ w v, ev = .hostWrite w v ∧ step s = hostWrite w v { s with pending := rest }) ∨
       (∃ w, ev = .hostRead w ∧ step s = hostRead w { s with pending := rest }) ∨
       (ev = .reset ∧ step s = .next (resetEvent { s with pending := rest }))) := by
  unfold step
  cases hp : s.pending with
  | nil => exact .inl ⟨rfl, rfl⟩
  | cons ev rest =>
    refine .inr ⟨ev, rest, rfl, ?_⟩
    cases ev with
    | command c =>
      cases hw : s.waits c.agent
      · exact .inr (.inl ⟨c, rfl, hw, by simp [takeEvent, hw]⟩)
      · exact .inl ⟨c, rfl, hw, by simp [takeEvent, hw]⟩
    | frame => exact .inr (.inr (.inl ⟨rfl, rfl⟩))
    | hostWrite w v => exact .inr (.inr (.inr (.inl ⟨w, v, rfl, rfl⟩)))
    | hostRead w => exact .inr (.inr (.inr (.inr (.inl ⟨w, rfl, rfl⟩))))
    | reset => exact .inr (.inr (.inr (.inr (.inr ⟨rfl, rfl⟩))))

/-! ### What is pending -/

/-- No command touches what is pending. -/
theorem exec_pending {i : Instr} {s t : State} (h : exec i s = .next t) : t.pending = s.pending := by
  cases i with
  | init sr => rcases execInit_cases sr s with ⟨_, e⟩ | ⟨_, _, e⟩ | ⟨_, _, e⟩ <;> cases e.symm.trans h <;> rfl
  | setp id v =>
    rcases execSetp_cases id v s with ⟨_, e⟩ | ⟨_, _, ⟨_, e⟩ | ⟨_, e⟩⟩ <;> cases e.symm.trans h <;> rfl
  | getp id => rcases execGetp_cases id s with ⟨_, e⟩ | ⟨_, _, ⟨_, e⟩ | ⟨_, e⟩⟩ <;> cases e.symm.trans h <;> rfl
  | proc count base =>
    rcases execProc_cases count base s with ⟨_, e⟩ | ⟨_, _, ⟨_, e⟩ | ⟨_, _, e⟩ | ⟨_, _, _, e⟩ | ⟨_, _, _, e⟩⟩ <;>
      cases e.symm.trans h <;> rfl

/-- Serving a command word does not touch what is pending. -/
theorem serve_pending {c : Call} {s t : State} (h : serve c s = .next t) : t.pending = s.pending := by
  unfold serve serveWord at h
  split at h
  · exact (exec_pending h).trans rfl
  · cases h
    rfl

/-- The datapath's turn does not touch what is pending. -/
theorem runFrame_pending {s t : State} (h : runFrame s = .next t) : t.pending = s.pending := by
  rcases runFrame_cases s with ⟨_, e⟩ | ⟨_, _, _, _, ⟨_, e⟩ | ⟨_, _, e⟩ | ⟨_, _, e⟩⟩ <;> cases e.symm.trans h
  · rfl
  · rfl
  · unfold blockFrame afterFrame
    simp only
    split <;> rfl

/-- A step takes the first pending event, or none. -/
theorem step_pending {s t : State} (h : step s = .next t) :
    t.pending = s.pending ∨ ∃ ev, s.pending = ev :: t.pending := by
  rcases step_cases s with ⟨_, e⟩ | ⟨ev, rest, hp, hs⟩
  · exact .inl (runFrame_pending (e ▸ h))
  · rw [hp]
    rcases hs with ⟨_, _, _, e⟩ | ⟨_, _, _, e⟩ | ⟨_, e⟩ | ⟨w, v, _, e⟩ | ⟨w, _, e⟩ | ⟨_, e⟩ <;> rw [e] at h
    · exact .inl ((runFrame_pending h).trans hp)
    · exact .inr ⟨ev, by rw [serve_pending h]⟩
    · exact .inr ⟨ev, by rw [runFrame_pending h]⟩
    · rcases hostWrite_cases w v { s with pending := rest } with ⟨_, e'⟩ | ⟨_, _, e'⟩ | ⟨_, _, e'⟩ <;>
        cases e'.symm.trans h
      exact .inr ⟨ev, rfl⟩
    · rcases hostRead_cases w { s with pending := rest } with ⟨_, e'⟩ | ⟨_, _, e'⟩ | ⟨_, _, e'⟩ <;>
        cases e'.symm.trans h
      exact .inr ⟨ev, rfl⟩
    · cases h
      exact .inr ⟨ev, rfl⟩

/-- A run of one step more is a step and a run. -/
theorem run_succ (k : Nat) (s u : State) :
    run (k + 1) s = .next u ↔ ∃ t, step s = .next t ∧ run k t = .next u := by
  have hr : ∀ (M : Host.Core) (s : M.State), M.run (k + 1) s =
      match M.step s with
      | .next t => M.run k t
      | .fault r => .fault r
      | .refused r => .refused r := fun _ _ => rfl
  unfold run
  rw [hr Sys2Proof.core s]
  change _ ↔ ∃ t, Sys2Proof.core.step s = .next t ∧ Sys2Proof.core.run k t = .next u
  cases Sys2Proof.core.step s with
  | next t => exact ⟨fun h => ⟨t, rfl, h⟩, by rintro ⟨_, ⟨⟩, h⟩; exact h⟩
  | fault r => exact ⟨nofun, by rintro ⟨_, ⟨⟩, _⟩⟩
  | refused r => exact ⟨nofun, by rintro ⟨_, ⟨⟩, _⟩⟩

/-- What was pending before a run is what the run took, and what is pending after it. -/
theorem run_taken {k : Nat} {s t : State} (h : run k s = .next t) :
    s.pending = taken s t ++ t.pending ∧ (taken s t).length ≤ k := by
  have key : ∀ (k : Nat) (s : State), run k s = .next t →
      ∃ evs : List Event, s.pending = evs ++ t.pending ∧ evs.length ≤ k := by
    intro k
    induction k with
    | zero =>
      intro s h
      cases h
      exact ⟨[], rfl, Nat.le_refl 0⟩
    | succ k ih =>
      intro s h
      obtain ⟨m, hm, hk⟩ := (run_succ k s t).1 h
      obtain ⟨evs, he, hl⟩ := ih m hk
      rcases step_pending hm with hp | ⟨ev, hp⟩
      · exact ⟨evs, hp ▸ he, by omega⟩
      · exact ⟨ev :: evs, by rw [hp, he]; rfl, by simpa using hl⟩
  obtain ⟨evs, he, hl⟩ := key k s h
  have ht : taken s t = evs := by simp [taken, he]
  exact ⟨by rw [ht, he], by rw [ht]; exact hl⟩

end Sys2Proof.Machine
end

