-- ==== Sys2Proof/Laws/Frame.lean ====
section
/-! SUPPORT. What the parts of a frame keep: a frame takes lines that satisfy their invariant (R129) to such
lines. -/

namespace Sys2Proof.Machine

/-- The diffuser keeps the invariant of every line. -/
theorem diffuser_ok {ls : Vector Line 12} (h : ∀ i, (ls.get i).Ok) (d : Draws) (fi si lp1 : F32) :
    ∀ i, ((diffuser d fi si lp1 ls).lines.get i).Ok :=
  lineWrite_ok (lineWrite_ok (lineWrite_ok (lineWrite_ok h 0 _) 1 _) 2 _) 3 _

/-- A pass of a loop keeps the invariant of every line. -/
theorem loopPass_ok {ls : Vector Line 12} (h : ∀ i, (ls.get i).Ok) (d : Draws) (c : TankCoefficients)
    (r : LoopLines) (split exc lp : F32) : ∀ i, ((loopPass d c r split exc lp ls).lines.get i).Ok :=
  lineWrite_ok (lineWrite_ok (lineWrite_ok (lineWrite_ok h r.first _) r.second _) r.third _) r.last _

/-- A frame keeps the invariant of every line. -/
theorem frame_lines_ok {e : Engine} (h : ∀ i, (e.lines.get i).Ok) (d : Draws) (cfg : Config)
    (inL inR : F32) : ∀ i, ((frame d cfg e inL inR).engine.lines.get i).Ok := by
  intro i
  have := loopPass_ok (loopPass_ok (diffuser_ok (ls := e.lines) h
    (d.shift 10) ((snapshot e).param .inputDiffusion1) ((snapshot e).param .inputDiffusion2)
    (frameInput d (snapshot e) e inL inR).lp1) ((d.shift 10).shift 100)
    (tankCoefficients ((d.shift 10).shift 20) (snapshot e)) leftLoop
    (diffuser (d.shift 10) ((snapshot e).param .inputDiffusion1) ((snapshot e).param .inputDiffusion2)
      (frameInput d (snapshot e) e inL inR).lp1 e.lines).pre
    (excursion ((d.shift 10).shift 30) cfg (snapshot e) e.sampleRate e.phase).left e.lp2)
    ((d.shift 10).shift 200) (tankCoefficients ((d.shift 10).shift 20) (snapshot e)) rightLoop
    (diffuser (d.shift 10) ((snapshot e).param .inputDiffusion1) ((snapshot e).param .inputDiffusion2)
      (frameInput d (snapshot e) e inL inR).lp1 e.lines).pre
    (excursion ((d.shift 10).shift 30) cfg (snapshot e) e.sampleRate e.phase).right e.lp3 i
  change ((advanceLines _).get i).Ok
  rw [get_advanceLines]
  exact this.advance

/-- The engine that `INIT` builds has lines that satisfy the invariant, at every rate that passes `CHECK`. -/
theorem construct_lines_ok {cfg : Config} {sr : BitVec 32} (h : checkRate cfg sr = true) (i : Fin 12) :
    ((construct cfg sr).lines.get i).Ok := by
  simp only [checkRate, Bool.and_eq_true, decide_eq_true_eq] at h
  simpa [construct, Vector.get_eq_getElem] using dlInit_ok (h.2 i)

end Sys2Proof.Machine
end

