-- ==== Sys2Proof/Laws/PerInstr.lean ====
section
/-! SUPPORT. Statements about every command as syntax, one lemma per constructor. -/

namespace Sys2Proof.Laws.FieldsWellFormed

/-- The fields of the command are well formed: its operation code is not reserved and the fields it does not
use are zero (R90, R92, R101). -/
def Statement (i : Sys2Proof.Instr) : Prop := i.wf = true

theorem init (sr : BitVec 32) : Statement (.init sr) := by
  simp [Statement, Instr.wf, Instr.fields, Fields.wf, Fields.opKnown, Fields.idOk, Fields.countOk,
    Fields.dataOk, opInit, opGetp]

theorem setp (id : BitVec 8) (value : F32) : Statement (.setp id value) := by
  simp [Statement, Instr.wf, Instr.fields, Fields.wf, Fields.opKnown, Fields.idOk, Fields.countOk,
    Fields.dataOk, opSetp, opGetp]

theorem getp (id : BitVec 8) : Statement (.getp id) := by
  simp [Statement, Instr.wf, Instr.fields, Fields.wf, Fields.opKnown, Fields.idOk, Fields.countOk,
    Fields.dataOk]

theorem proc (count : BitVec 16) (base : BitVec 32) : Statement (.proc count base) := by
  simp [Statement, Instr.wf, Instr.fields, Fields.wf, Fields.opKnown, Fields.idOk, Fields.countOk,
    Fields.dataOk, opProc, opGetp]

end Sys2Proof.Laws.FieldsWellFormed
end

