-- ==== Sys2Proof/Tests/Slice0.lean ====
section
/-! SUPPORT. Tests: the well-formedness checks refuse what they should, words written out bit by bit from the
spec's encoding decode to their commands, steps answer what 95_test_vectors.md says, and for every statement
with hypotheses a named state meets them all. -/

namespace Sys2Proof.Tests

open Sys2Proof Sys2Proof.Machine

/-! ### Well-formedness: one ill-formed term for each check (R90, R92) -/

theorem test_reserved_op_ill_formed :
    (Fields.wf ⟨0x00#8, 0#8, 0#16, 0#32⟩, Fields.wf ⟨0x05#8, 0#8, 0#16, 0#32⟩,
      Fields.wf ⟨0xFF#8, 0#8, 0#16, 0#32⟩) = (false, false, false) := by decide

theorem test_id_of_init_ill_formed : Fields.wf ⟨0x01#8, 1#8, 0#16, 48000#32⟩ = false := by decide

theorem test_id_of_proc_ill_formed : Fields.wf ⟨0x04#8, 1#8, 1#16, 0#32⟩ = false := by decide

theorem test_count_of_setp_ill_formed : Fields.wf ⟨0x02#8, 4#8, 1#16, 0x3F000000#32⟩ = false := by decide

theorem test_data_of_getp_ill_formed : Fields.wf ⟨0x03#8, 4#8, 0#16, 1#32⟩ = false := by decide

/-! ### Decoding (R96; the words from R101 and 95_test_vectors.md 2.4) -/

/-- `00000001 00000000 0000000000000000 d…d` with the rate 48000. -/
theorem test_init_word :
    decode (0b00000001#8 ++ 0b00000000#8 ++ 0b0000000000000000#16 ++
      0b00000000000000001011101110000000#32) = .ok (.init 48000#32) := by decide

/-- `00000010 iiiiiiii 0000000000000000 d…d`: `SETP decay, 0.5`. -/
theorem test_setp_word :
    decode (0b00000010#8 ++ 0b00000100#8 ++ 0b0000000000000000#16 ++
      0b00111111000000000000000000000000#32) = .ok (.setp 4#8 0x3F000000#32) := by decide

/-- `00000011 iiiiiiii 0…0`: `GETP dry`. -/
theorem test_getp_word :
    decode (0b00000011#8 ++ 0b00001011#8 ++ 0b0000000000000000#16 ++
      0b00000000000000000000000000000000#32) = .ok (.getp 11#8) := by decide

/-- `00000100 00000000 c…c d…d`: `PROC 256, 128`. -/
theorem test_proc_word :
    decode (0b00000100#8 ++ 0b00000000#8 ++ 0b0000000010000000#16 ++
      0b00000000000000000000000100000000#32) = .ok (.proc 128#16 256#32) := by decide

/-- Every rejection has its name (R97; words of 95_test_vectors.md 2.1, 2.4). -/
theorem test_rejections_named :
    decode 0x0500000000000000#64 = .error .reservedOp ∧ decode 0x010100000000BB80#64 = .error .idNotZero ∧
    decode 0x020400013F000000#64 = .error .countNotZero ∧
    decode 0x0304000000000001#64 = .error .dataNotZero := by decide

/-- Lines of text and the events they stand for (R100, R101; 95_test_vectors.md 3.2). -/
theorem test_program_text :
    assembleText ".buf 0: 0x3F000000, -0.25 ; frame 0\nPROC 0, 4".toList =
      some [.hostWrite 0#32 0x3F000000#32, .hostWrite 1#32 0xBE800000#32,
        .command ⟨.render, 0x0400000400000000#64⟩] ∧
    assembleText "SETP wet, 0x7FC00001".toList = some [.command ⟨.control, 0x020A00007FC00001#64⟩] ∧
    assembleText "PROC 0, 65536".toList = none := by decide +kernel

/-! ### Small states -/

/-- The engine of the lowest rate that the default tables accept (R131). -/
def engine0 : Engine := construct defaultConfig 418#32

/-- `READY`, with no block in progress. -/
def ready0 : State := { State.reset with mode := .ready engine0 }

/-- A `PROC 0, 1` of agent R. -/
def call0 : Call := { agent := .render, word := 0x0400000100000000#64 }

/-- The record of that `PROC` before its frame. -/
def block0 : Block := { base := 0#32, count := 1#16, i := 0#16, call := call0 }

/-- `READY`, with that block in progress. -/
def busy0 : State := { ready0 with mode := .ready { engine0 with busy := some block0 } }

/-- The response and the first two words of `BUF` after a run. -/
def seen : Host.Outcome State Fault Refusal → Option (Observation × F32 × F32)
  | .next s => s.observed.head?.map fun o => (o, bufRead s.buf 0, bufRead s.buf 1)
  | _ => none

/-- How many events are pending after a run. -/
def pendingAfter : Host.Outcome State Fault Refusal → Option Nat
  | .next t => some t.pending.length
  | _ => none

/-- A run after which `n` events are pending took the ones before the last `n`. -/
theorem taken_of_pendingAfter {s : State} {o : Host.Outcome State Fault Refusal} {n : Nat}
    (h : pendingAfter o = some n) : ∃ t, o = .next t ∧ taken s t = s.pending.take (s.pending.length - n) := by
  cases o with
  | next t =>
    obtain rfl : t.pending.length = n := by simpa [pendingAfter] using h
    exact ⟨t, rfl, rfl⟩
  | fault f => cases h
  | refused r => cases h

/-- The response to a command word in a state. -/
def answer (s : State) (w : CommandWord) : Option ResponseWord :=
  match serveWord w s with
  | .next t =>
    match t.observed with
    | .response _ rw :: _ => some rw
    | _ => none
  | _ => none

theorem engine0_rate : checkRate defaultConfig 418#32 = true := by decide +kernel

theorem engine0_lines (i : Fin 12) : (engine0.lines.get i).Ok := construct_lines_ok engine0_rate i

theorem engine0_sizes :
    ∀ i, (engine0.lines.get i).size + 1 = lineLength (lineSecDefault.get i) 418#32 := by decide +kernel

theorem engine0_taps : ∀ t, engine0.tapOff.get t = tapOffset (tapSecDefault.get t) 418#32 := by
  decide +kernel

/-- An engine as `INIT 418` left it satisfies the invariant, whatever block it runs. -/
theorem engine0_ok (ob : Option Block) (h : ∀ b, ob = some b → b.Ok defaultConfig) :
    Engine.Ok defaultConfig { engine0 with busy := ob } where
  rate := engine0_rate
  line_ok := engine0_lines
  line_size := engine0_sizes
  tap_off := engine0_taps
  pd_len := rfl
  pd_cursor := show 0 < (418#32).toNat by decide
  pd_wf := show cellsWf (418#32).toNat ([] : Ram) by decide
  block_ok := h

theorem ready0_inv (pending : List Event) : State.Inv { ready0 with pending := pending } where
  buf_wf := show Memory.wf defaultConfig.bufWords.toNat [] by decide
  engine_ok := by
    intro e he
    obtain rfl : engine0 = e := by simpa [ready0] using he
    exact engine0_ok none (by simp)

/-- With nothing pending, no `INIT` is next. -/
theorem noInit_of_idle {s : State} (h : s.pending = []) : NoInitNext s := by
  intro c rest sr hc
  rw [h] at hc
  cases hc

/-- An `INIT` of agent R, which waits while its block runs, is not served next. -/
theorem noInit_of_waiting :
    NoInitNext { busy0 with pending := [.command ⟨.render, 0x01000000000001A2#64⟩] } := by
  intro c rest sr hc hw
  obtain ⟨rfl, -⟩ : ⟨.render, 0x01000000000001A2#64⟩ = c ∧ [] = rest := by simpa using hc
  exact absurd hw (by decide +kernel)

theorem block0_ok : block0.Ok defaultConfig := ⟨by decide, by decide⟩

theorem busy0_inv (pending : List Event) : State.Inv { busy0 with pending := pending } where
  buf_wf := show Memory.wf defaultConfig.bufWords.toNat [] by decide
  engine_ok := by
    intro e he
    obtain rfl : { engine0 with busy := some block0 } = e := by simpa [busy0] using he
    exact engine0_ok (some block0) (by
      intro b hb
      obtain rfl : block0 = b := by simpa using hb
      exact block0_ok)

/-! ### Steps (95_test_vectors.md 2.1, 2.10, 3.4: the responses; 3.1: the frame) -/

theorem test_init_responses :
    answer State.reset 0x010000000000BB80#64 = some 0x0000000000#40 ∧
    answer State.reset 0x01000000000001A1#64 = some 0x0100000000#40 ∧
    answer State.reset 0x010000000002EE01#64 = some 0x0100000000#40 ∧
    answer busy0 0x0100000000000000#64 = some 0x0300000000#40 := by decide +kernel

/-- The lengths of the table at 418 Hz: `size + 1`, and the capacities. -/
theorem test_init_lengths :
    engine0.lines.toList.map (fun l => (l.size + 1, l.cap)) =
      [(2, 2), (2, 2), (5, 8), (4, 4), (9, 16), (63, 64), (25, 32), (52, 64), (13, 16), (59, 64),
       (37, 64), (44, 64)] := by decide +kernel

theorem test_setp_responses :
    answer State.reset 0x020C00003F800000#64 = some 0x0300000000#40 ∧
    answer ready0 0x020C00003F800000#64 = some 0x0200000000#40 ∧
    answer busy0 0x020A00007FC00001#64 = some 0x0000000000#40 := by decide +kernel

theorem test_getp_responses :
    answer State.reset 0x0301000000000000#64 = some 0x0300000000#40 ∧
    answer ready0 0x0301000000000000#64 = some 0x003F7FF972#40 ∧
    answer ready0 0x030B000000000000#64 = some 0x003F19999A#40 ∧
    answer ready0 0x03FF000000000000#64 = some 0x0200000000#40 := by decide +kernel

theorem test_proc_responses :
    answer State.reset 0x0400000400000000#64 = some 0x0300000000#40 ∧
    answer ready0 0x04000000FFFFFFFF#64 = some 0x0000000000#40 ∧
    answer busy0 0x0400000400000000#64 = some 0x0300000000#40 := by decide +kernel

/-- Frame 0 of a block with the input (1.0, 1.0) answers (0.6, 0.6) and `OK`: 95_test_vectors.md 1.8, whose
frame 0 is the same at every rate. -/
theorem test_frame_zero :
    seen (step { busy0 with buf := bufWrite (bufWrite [] 0 0x3F800000#32) 1 0x3F800000#32 }) =
      some (.response call0 0x0000000000#40, 0x3F19999A#32, 0x3F19999A#32) := by decide +kernel

/-! ### The datapath (95_test_vectors.md 2.3, 2.5, 2.7, 2.8) -/

/-- Free values that no vector depends on. -/
def draws0 : Draws := { nan := fun _ => 0#23, read := fun _ => 0#32 }

/-- The line of the examples of R123 and R124: 1.0 to 10.0 in ten frames, the last not advanced, `size = 4`. -/
theorem test_read_vectors :
    let l := dlWrite (lineFrames { dlInit 8 with size := 4 } [0x3F800000#32, 0x40000000#32, 0x40400000#32,
      0x40800000#32, 0x40A00000#32, 0x40C00000#32, 0x40E00000#32, 0x41000000#32, 0x41100000#32]) 0x41200000#32
    dlReadTap l 0 = 0x41200000#32 ∧ dlReadTap l 7 = 0x40400000#32 ∧ dlReadTap l 8 = 0x41200000#32 ∧
    dlReadFixed l = 0x40C00000#32 := by decide +kernel

theorem test_cubic_vectors :
    cubic draws0 0x41800000#32 0x41100000#32 0x40800000#32 0x3F800000#32 0x3E800000#32 = 0x40F20000#32 ∧
    cubic draws0 0x41100000#32 0x40800000#32 0x3F800000#32 0x42800000#32 0x3F000000#32 = 0xBFE00000#32 ∧
    cubic draws0 0#32 0#32 0x3F800000#32 0#32 0x3F000000#32 = 0x3F100000#32 := by decide +kernel

/-- An offset of −2^-25 rounds its fraction up to 1.0. -/
theorem test_fraction_rounds_up : interpFraction draws0 0xB3000000#32 = 0x3F800000#32 := by decide +kernel

theorem test_lpf_vectors :
    lpf draws0 0#32 0x3F7EB852#32 0x3F800000#32 = 0x3F7EB852#32 ∧
    lpf draws0 0x3F7EB852#32 0x3F7EB852#32 0x3F800000#32 = 0x3F7FFE5D#32 ∧
    lpf draws0 0x3F7FFE5D#32 0x3F7EB852#32 0#32 = 0x3BA3D600#32 := by decide +kernel

theorem test_pre_delay_vectors :
    pdSamples 0x473B7F80#32 48000 = 47999 ∧ pdSamples 0xC0A00000#32 48000 = 0 ∧
    pdSamples 0x7FC00000#32 48000 = 0 ∧ pdSamples 0x7F800000#32 48000 = 48000 ∧
    pdIndex 2 1000 3 = 999 := by decide +kernel

theorem test_lfo_vectors :
    excursionDepth draws0 0x3F333333#32 depthDivDefault 44100#32 = 0x41F6F5C3#32 ∧
    lfoOffset draws0 0x41F6F5C3#32 (Fp.cos2pi 0#32) = 0x4276F5C3#32 ∧
    phaseAdvance draws0 0#32 0x47EA6000#32 48000#32 = 0x3F000000#32 ∧
    phaseAdvance draws0 0#32 0x3F000000#32 48000#32 = 0x372EC33E#32 := by decide +kernel

/-- What frame 0 writes into the first two lines of each loop (R173, R174, R178, R179): the lines of R24. -/
theorem test_tank_lines_vectors :
    let c : TankCoefficients := { dc := 0x3F000000#32, ft := 0x3F333333#32, st := 0x3F000000#32, dp := 0x3F7EB852#32 }
    let cells (r : LoopLines) := (loopPass draws0 c r 0x3EE0FA3D#32 0#32 0#32 engine0.lines).lines.toList.map (·.buf)
    cells leftLoop = [[], [], [], [], [(0, 0x3EE0FA3D#32)], [(0, 0xBE9D7BF7#32)], [], [], [], [], [], []] ∧
    cells rightLoop = [[], [], [], [], [], [], [], [], [(0, 0x3EE0FA3D#32)], [(0, 0xBE9D7BF7#32)], [], []] := by
  decide +kernel

theorem test_mix_vectors :
    wetGain 0#23 0x3E99999A#32 = 0x3E3851EC#32 ∧
    outputMix draws0 0#32 0x3F19999A#32 0xBE9D7BF7#32 0x3E3851EC#32 = 0xBD62C6FE#32 := by decide +kernel

/-! ### Witnesses: for each statement with hypotheses, states and operands that meet them all -/

theorem wit_EncodeInvertsDecode : decode 0x0400FFFFFFFFFFFF#64 = .ok (.proc 65535#16 0xFFFFFFFF#32) := by
  decide

theorem wit_OpcodeTestsAreExclusive :
    ∃ r ∈ opcodeRows, (0x02FF0000FFFFFFFF#64 : CommandWord) &&& r.mask = r.pattern := by
  refine ⟨_, List.mem_cons_of_mem _ (List.mem_cons_self ..), ?_⟩
  decide

theorem wit_MalformedWordAnswersCommandError :
    (wordFields 0#64).wf = false ∧ (wordFields 0x0500000000000000#64).wf = false ∧
    (wordFields 0xFFFFFFFFFFFFFFFF#64).wf = false ∧ (wordFields 0x0304000080000000#64).wf = false := by
  decide

theorem wit_SetpWritesItsRegister :
    State.reset.mode = .uninit ∧ ready0.mode = .ready engine0 ∧
    (11 < (12#8).toNat ∧ 11 < (255#8).toNat) ∧ (0#8).toNat ≤ 11 ∧ (11#8).toNat ≤ 11 :=
  ⟨rfl, rfl, by decide⟩

theorem wit_GetpAnswersTheRegister :
    State.reset.mode = .uninit ∧ ready0.mode = .ready engine0 ∧
    (11 < (12#8).toNat ∧ 11 < (255#8).toNat) ∧ (0 : Fin 12).val = (0#8).toNat ∧
    (11 : Fin 12).val = (11#8).toNat := ⟨rfl, rfl, by decide⟩

/-- No step, and one that serves a `GETP`, between `SETP` and `GETP`, with an `INIT` pending behind it. -/
theorem wit_ParameterRoundTrip :
    let s : State := { ready0 with pending :=
      [.command ⟨.control, 0x0304000000000000#64⟩, .command ⟨.render, 0x01000000000001A2#64⟩] }
    s.mode = .ready engine0 ∧ (11#8).toNat ≤ 11 ∧
    ∃ t, exec (.setp 11#8 0x7FC00001#32) s = .next t ∧ (∀ ev ∈ taken t t, LeavesParam 11#8 ev) ∧
      run 0 t = .next t ∧ ∃ u, run 1 t = .next u ∧ ∀ ev ∈ taken t u, LeavesParam 11#8 ev := by
  have hg : decode 0x0304000000000000#64 = .ok (.getp 4#8) := by decide
  exact ⟨rfl, by decide, _, rfl, by simp [taken], rfl, _, rfl, by simp [taken, LeavesParam, ready0, hg, respond]⟩

theorem wit_InitBuildsTheEngine :
    State.reset.busy = none ∧ (418#32 ≠ 0#32 ∧ (418#32).toNat ≤ State.reset.cfg.maxSampleRate.toNat ∧
      ∀ i, 2 ≤ roundTimes (State.reset.cfg.lineSec.get i) (418#32).toNat) ∧
    (192000#32 ≠ 0#32 ∧ (192000#32).toNat ≤ State.reset.cfg.maxSampleRate.toNat ∧
      ∀ i, 2 ≤ roundTimes (State.reset.cfg.lineSec.get i) (192000#32).toNat) ∧
    ∀ t, roundTimes (State.reset.cfg.tapSec.get t) (192000#32).toNat < 2 ^ 32 :=
  ⟨rfl, by decide +kernel, by decide +kernel, by decide +kernel⟩

/-- The boundary rates of both directions. -/
theorem wit_DefaultRatesAccepted :
    checkRate defaultConfig 418#32 = true ∧ checkRate defaultConfig 192000#32 = true ∧
    checkRate defaultConfig 417#32 = false ∧ checkRate defaultConfig 192001#32 = false := by decide +kernel

theorem wit_ProcOfNoFrames : ready0.mode = .ready engine0 ∧ engine0.busy = none := ⟨rfl, rfl⟩

/-- The last two words of `BUF`. -/
theorem wit_ProcIsAccepted :
    ready0.mode = .ready engine0 ∧ engine0.busy = none ∧ (1#16 ≠ 0#16) ∧
    (0xFFFFFFFD#32).toNat + 2 * (1#16).toNat ≤ ready0.cfg.bufWords.toNat :=
  ⟨rfl, rfl, by decide, by decide⟩

/-- One word too far. -/
theorem wit_CommandFaultsOnlyOutsideBuf :
    exec (.proc 1#16 0xFFFFFFFE#32) ready0 = .fault .blockOutsideBuf := rfl

/-- With nothing behind the `PROC`, and with the next command of its agent behind it. -/
theorem wit_BlockRunsToCompletion :
    let s (rest : List Event) := { ready0 with pending := .command call0 :: rest }
    (∀ rest, (s rest).Inv ∧ (s rest).mode = .ready engine0 ∧ (s rest).pending = .command call0 :: rest ∧
      (0#32).toNat + 2 * (1#16).toNat ≤ (s rest).cfg.bufWords.toNat) ∧
    engine0.busy = none ∧ WaitsBehind .render [] ∧ WaitsBehind .render [.command call0, .reset] ∧
    decode call0.word = .ok (.proc 1#16 0#32) ∧ 1#16 ≠ 0#16 ∧ 0 < (1#16).toNat :=
  ⟨fun _ => ⟨ready0_inv _, rfl, rfl, show _ ≤ defaultConfig.bufWords.toNat by decide⟩, rfl, .inl rfl,
    .inr ⟨_, _, rfl, rfl⟩, by decide, by decide, by decide⟩

/-- `PROC 0, 1` and `PROC 2, 1` against `PROC 0, 2`; and a first part of no frames. -/
theorem wit_ConsecutiveBlocksAreOneBlock :
    ready0.Inv ∧ ready0.mode = .ready engine0 ∧ engine0.busy = none ∧
    decode 0x0400000100000000#64 = .ok (.proc 1#16 0#32) ∧
    decode 0x0400000100000002#64 = .ok (.proc 1#16 2#32) ∧
    decode 0x0400000200000000#64 = .ok (.proc 2#16 0#32) ∧
    decode 0x0400000000000000#64 = .ok (.proc 0#16 0#32) ∧
    (2#16).toNat = (1#16).toNat + (1#16).toNat ∧ (1#16).toNat = (0#16).toNat + (1#16).toNat ∧
    (2#32).toNat = (0#32).toNat + 2 * (1#16).toNat ∧
    (0#32).toNat + 2 * (2#16).toNat ≤ ready0.cfg.bufWords.toNat :=
  ⟨ready0_inv [], rfl, rfl, by decide, by decide, by decide, by decide, by decide, by decide, by decide,
    by decide⟩

/-- The three causes. -/
theorem wit_ConfigurationErrorExactly :
    AnswersOnly (.init 0#32) State.reset 0x0100000000#40 ∧
    AnswersOnly (.init 192001#32) State.reset 0x0100000000#40 ∧
    AnswersOnly (.init 417#32) State.reset 0x0100000000#40 := ⟨rfl, rfl, rfl⟩

theorem wit_ParameterErrorExactly :
    AnswersOnly (.setp 12#8 0#32) ready0 0x0200000000#40 ∧
    AnswersOnly (.getp 255#8) busy0 0x0200000000#40 := ⟨rfl, rfl⟩

theorem wit_StateErrorExactly :
    AnswersOnly (.proc 0#16 0#32) State.reset 0x0300000000#40 ∧
    AnswersOnly (.init 418#32) busy0 0x0300000000#40 ∧
    AnswersOnly (.proc 0#16 0#32) busy0 0x0300000000#40 := ⟨rfl, rfl, rfl⟩

theorem wit_FailedCommandChangesNothing :
    ∃ t, exec (.getp 12#8) ready0 = .next t ∧
      t.observed = .response ready0.port 0x0200000000#40 :: ready0.observed ∧
      (0x0200000000#40).extractLsb' 32 8 ≠ 0#8 := ⟨_, rfl, rfl, by decide⟩

/-- Agent R when nothing runs; agent C while a block runs. -/
theorem wit_StepRunsTheDecodedCommand :
    (State.waits State.reset .render = false ∧ decode 0x01000000000001A2#64 = .ok (.init 418#32) ∧
      (Instr.init 418#32).wf = true) ∧
    State.waits busy0 .control = false ∧ decode 0x0301000000000000#64 = .ok (.getp 1#8) ∧
      (Instr.getp 1#8).wf = true := by decide +kernel

/-- Words of both clauses. -/
theorem wit_FetchWordIsServedNext :
    decodeTableWord 64 0x0301000000000000 = some (.getp 1#8) ∧
    decodeTableWord 64 0x0301000000000001 = none := by decide

/-- An agent that waits, one that is answered at once, and one whose `PROC` is accepted. -/
theorem wit_EachCommandIsAnsweredOnce :
    State.waits busy0 .render = true ∧ (∃ t, step { busy0 with pending := [.command call0] } = .next t) ∧
    State.waits busy0 .control = false ∧
    (∃ t, step { busy0 with pending := [.command ⟨.control, 0x0301000000000000#64⟩] } = .next t) ∧
    State.waits ready0 .render = false ∧ ∃ t, step { ready0 with pending := [.command call0] } = .next t :=
  ⟨by decide +kernel, ⟨_, rfl⟩, by decide +kernel, ⟨_, rfl⟩, by decide +kernel, ⟨_, rfl⟩⟩

theorem wit_SetpIsSeenByTheNextFrame :
    busy0.mode = .ready { engine0 with busy := some block0 } ∧ block0.i.toNat < block0.count.toNat ∧
    busy0.hasWord (rightWord block0) = true ∧ Agent.control ≠ block0.call.agent ∧
    decode 0x020B00003F800000#64 = .ok (.setp 11#8 0x3F800000#32) ∧ (11#8).toNat ≤ 11 :=
  ⟨rfl, by decide, by decide +kernel, by decide, by decide, by decide⟩

theorem wit_ResetEventLeavesUninit : ({ busy0 with pending := [.reset] } : State).pending = [.reset] := rfl

/-- The first and the last word; a word just past a running block. -/
theorem wit_HostAccessesTouchOneWord :
    Memory.wf busy0.cfg.bufWords.toNat busy0.buf ∧ (2#32).toNat < busy0.cfg.bufWords.toNat ∧
    ¬ BlockHolds busy0 (2#32).toNat ∧ ¬ BlockHolds ready0 (0#32).toNat ∧
    (0xFFFFFFFE#32).toNat < busy0.cfg.bufWords.toNat ∧ ¬ BlockHolds busy0 (0xFFFFFFFE#32).toNat := by
  simp only [← owns_iff]
  decide +kernel

theorem wit_ModeChangesOnlyByResetAndInit :
    (∃ t, step { busy0 with pending := [.reset] } = .next t ∧ t.mode = .uninit) ∧
    State.reset.mode = .uninit ∧
    ∃ t, step (State.reset.withFetchWord 64 0x01000000000001A2) = .next t ∧ t.mode = .ready engine0 :=
  ⟨⟨_, rfl, rfl⟩, rfl, _, rfl, rfl⟩

theorem wit_ConfigurationNeverChanges :
    ∃ t, step { State.reset with pending := [.hostWrite 0#32 0x3F800000#32] } = .next t := ⟨_, rfl⟩

/-- A step that holds the state, one that runs a frame, and one with an `INIT` of the waiting agent pending. -/
theorem wit_GeometryChangesOnlyAtInit :
    ready0.mode = .ready engine0 ∧ NoInitNext ready0 ∧ step ready0 = .next ready0 ∧
    busy0.mode = .ready { engine0 with busy := some block0 } ∧ NoInitNext busy0 ∧
    (∃ t e', step busy0 = .next t ∧ t.mode = .ready e') ∧
    let s := { busy0 with pending := [.command ⟨.render, 0x01000000000001A2#64⟩] }
    s.mode = .ready { engine0 with busy := some block0 } ∧ NoInitNext s ∧
      ∃ t e', step s = .next t ∧ t.mode = .ready e' :=
  ⟨rfl, noInit_of_idle rfl, rfl, rfl, noInit_of_idle rfl, ⟨_, _, rfl, rfl⟩, rfl, noInit_of_waiting,
    _, _, rfl, rfl⟩

/-- Each fault in a state of the invariant; and for the converse the two words of the running block, and the first
word from `BUF_WORDS` on. -/
theorem wit_FaultsAreHostMisuse :
    (∀ pending, State.Inv { ready0 with pending := pending }) ∧
    (∀ pending, State.Inv { busy0 with pending := pending }) ∧
    step { ready0 with pending := [.command ⟨.render, 0x04000001FFFFFFFE#64⟩] } = .fault .blockOutsideBuf ∧
    step { busy0 with pending := [.hostRead 1#32] } = .fault .hostTouchedBlock ∧
    step { busy0 with pending := [.hostWrite 0xFFFFFFFF#32 0#32] } = .fault .noSuchWord ∧
    (BlockHolds busy0 (0#32).toNat ∧ (0#32).toNat < busy0.cfg.bufWords.toNat) ∧
    (BlockHolds busy0 (1#32).toNat ∧ (1#32).toNat < busy0.cfg.bufWords.toNat) ∧
    busy0.cfg.bufWords.toNat ≤ (0xFFFFFFFF#32).toNat := by
  refine ⟨ready0_inv, busy0_inv, rfl, rfl, rfl, ?_⟩
  simp only [← owns_iff]
  decide +kernel

theorem wit_StepKeepsTheInvariant :
    State.Inv { busy0 with pending := [] } ∧ ∃ t, step { busy0 with pending := [] } = .next t :=
  ⟨busy0_inv [], _, rfl⟩

theorem engine0_in_step : engine0.InStep 0 := by
  unfold Engine.InStep
  decide +kernel

/-- A frame, and an `INIT` in `READY`. -/
theorem wit_StepKeepsCursorsInStep :
    (State.Inv busy0 ∧ busy0.mode = .ready { engine0 with busy := some block0 } ∧
      Engine.InStep { engine0 with busy := some block0 } 0 ∧
      ∃ t e', step busy0 = .next t ∧ t.mode = .ready e') ∧
    let s := { ready0 with pending := [.command ⟨.render, 0x01000000000001A2#64⟩] }
    s.Inv ∧ s.mode = .ready engine0 ∧ engine0.InStep 0 ∧ ∃ t e', step s = .next t ∧ t.mode = .ready e' :=
  ⟨⟨busy0_inv [], rfl, engine0_in_step, _, _, rfl, rfl⟩, ready0_inv _, rfl, engine0_in_step, _, _, rfl, rfl⟩

theorem wit_CapacityIsTheLeastPowerOfTwo : 1 ≤ 1 ∧ nextPow2 1 = 1 ∧ nextPow2 8 = 8 ∧ nextPow2 9 = 16 := by
  decide

/-- The largest finite value, the smallest subnormal, both zeros and both infinities: an operand pair for each
clause, none a NaN. -/
theorem wit_ArithmeticIsRoundedToNearest :
    (Fp.isNan 0x7F7FFFFF#32 = false ∧ Fp.isFinite 0x7F7FFFFF#32 = true) ∧
    (Fp.isNan 0x80000001#32 = false ∧ Fp.isFinite 0x80000001#32 = true) ∧
    (Fp.isNan 0x80000000#32 = false ∧ Fp.isFinite 0x80000000#32 = true) ∧
    (Fp.isNan 0x7F800000#32 = false ∧ Fp.isInf 0x7F800000#32 = true) ∧
    (Fp.isNan 0xFF800000#32 = false ∧ Fp.isInf 0xFF800000#32 = true) ∧
    Fp.isZero 0x80000001#32 = false ∧ Fp.isZero 0#32 = true ∧ Fp.isZero 0x80000000#32 = true ∧
    Fp.units 0x00000001#32 + Fp.units 0x80000001#32 = 0 ∧
    Fp.units 0x80000000#32 - Fp.units 0#32 = 0 := by decide +kernel

/-- `inf − inf`, and a NaN operand. -/
theorem wit_NanResultsAreQuietAndFree :
    Fp.isNan (Fp.fsub 5#23 0x7F800000#32 0x7F800000#32) = true ∧
    (Fp.isNan 0x7F800001#32 || Fp.isNan 0#32) = true := by decide +kernel

theorem wit_OffsetsWrapAtTheCapacity : (dlInit 5).Ok := dlInit_ok (by decide)

/-- The shortest line, with an offset of each clause. -/
theorem wit_TapReadMeansDelay :
    2 ≤ 2 ∧ (2 : Int) % ((dlInit 2).cap : Int) = 0 ∧ (1 : Int) % ((dlInit 2).cap : Int) ≠ 0 := by decide

/-- The shortest line, before its first frame and after two. -/
theorem wit_FixedReadSeesEarlierFrames :
    (dlInit 2).Ok ∧ 2 ≤ 2 ∧ sampleOf [] (([] : List F32).length - ((2 : Nat) - 1 : Int)) = 0#32 ∧
    sampleOf [0x3F800000#32, 0x40000000#32] (2 - ((2 : Nat) - 1 : Int)) = 0x40000000#32 :=
  ⟨dlInit_ok (by decide), by decide⟩

/-- The line of 95_test_vectors.md 2.3, with finite samples and with one that is infinite. -/
def line0 (v : F32) : Line :=
  { cap := 8, size := 5, mask := 7, cur := 7
    buf := [(0, 0x3F800000#32), (1, 0x40800000#32), (2, v), (3, 0x41800000#32), (4, 0x41C80000#32)] }

/-- The three coefficients of the statement's two clauses at an integer offset are finite. -/
def coefficientsFinite (l : Line) (n : Int) : Bool :=
  let x0 := dlReadTap l (l.size + n - 1)
  let x1 := dlReadTap l (l.size + n)
  let x2 := dlReadTap l (l.size + n + 1)
  let x3 := dlReadTap l (l.size + n + 2)
  Fp.isFinite (cubicA draws0 x0 x1 x2 x3) && Fp.isFinite (cubicB draws0 x0 x1 x2 x3) &&
    Fp.isFinite (cubicC draws0 x0 x2)

/-- Offsets with a fraction, of either sign and with `f = 1.0`; and integer offsets for the two clauses. -/
theorem wit_InterpolationAtIntegerOffsets :
    (Fp.isFinite 0x3F400000#32 = true ∧ Fp.floor 0x3F400000#32 = 0 ∧ 0 ≤ Fp.units 0x3F400000#32) ∧
    (Fp.isFinite 0xBFC00000#32 = true ∧ Fp.floor 0xBFC00000#32 = -2) ∧ Fp.isFinite 0xB3000000#32 = true ∧
    Fp.isFinite 0xBF800000#32 = true ∧ Fp.units 0xBF800000#32 % 2 ^ 149 = 0 ∧
    Fp.floor 0xBF800000#32 = -1 ∧ Fp.isFinite 0#32 = true ∧ Fp.units 0#32 % 2 ^ 149 = 0 ∧
    coefficientsFinite (line0 0x41100000#32) (-1) = true ∧
    Fp.isFinite (dlReadTap (line0 0x41100000#32) 5) = true ∧
    Fp.isZero (dlReadTap (line0 0x41100000#32) 5) = false ∧
    coefficientsFinite (line0 0x7F800000#32) 0 = false := by decide +kernel

/-- A NaN, both infinities, a negative zero, the value just below and at the length. -/
theorem wit_PreDelayIsClamped :
    Fp.isNan 0x7FC00000#32 = true ∧ Fp.isInf 0x7F800000#32 = true ∧ Fp.isInf 0xFF800000#32 = true ∧
    (Fp.isFinite 0x80000000#32 = true ∧ Fp.units 0x80000000#32 ≤ 0) ∧
    (Fp.isFinite 0x473B7FFF#32 = true ∧ 0 < Fp.units 0x473B7FFF#32) ∧
    (Fp.isFinite 0x473B8000#32 = true ∧ 0 < Fp.units 0x473B8000#32) ∧ 48000 < 2 ^ 24 := by decide +kernel

theorem wit_FullPreDelayWrapsToZero :
    cellsWf engine0.pdLen engine0.preDelay ∧ engine0.pdW < engine0.pdLen ∧ 1 < engine0.pdLen ∧
    417 < engine0.pdLen ∧ engine0.preDelay = [] ∧ engine0.pdW = 0 ∧ engine0.pdLen = 418 := by decide +kernel

/-- A frame with a NaN in each filter state. -/
theorem wit_NanNeverLeavesAFilter :
    let e : Engine := { engine0 with
      lp1 := 0x7FC00000#32, lp2 := 0x7F800001#32, lp3 := 0xFFFFFFFF#32, busy := some block0 }
    let s : State := { busy0 with mode := .ready e }
    s.mode = .ready e ∧ NoInitNext s ∧ (∃ t e', step s = .next t ∧ t.mode = .ready e') ∧
    Fp.isNan e.lp1 = true ∧ Fp.isNan e.lp2 = true ∧ Fp.isNan e.lp3 = true :=
  ⟨rfl, noInit_of_idle rfl, ⟨_, _, rfl, rfl⟩, by decide, by decide, by decide⟩

theorem wit_DiffuserOverEarlierFrames : ∀ i, (engine0.lines.get i).Ok := engine0_lines

/-- Both loops, and an offset of 0 at which neither modulated line aliases. -/
theorem wit_TankLoopOverEarlierFrames :
    let table : List (LoopLines × Fin 12 × Fin 12 × Fin 12 × Fin 12 × Fin 12) :=
      [(leftLoop, 4, 5, 6, 7, 11), (rightLoop, 8, 9, 10, 11, 7)]
    (leftLoop, 4, 5, 6, 7, 11) ∈ table ∧ (rightLoop, 8, 9, 10, 11, 7) ∈ table ∧
    (∀ i, (engine0.lines.get i).Ok) ∧ noAlias (engine0.lines.get 4) 0#32 ∧
    noAlias (engine0.lines.get 8) 0#32 := by
  refine ⟨by simp, by simp, engine0_lines, ?_, ?_⟩ <;> unfold noAlias <;> decide +kernel

theorem wit_LoopOrderIsIrrelevant : (engine0.lines.get 7).Ok ∧ (engine0.lines.get 11).Ok :=
  ⟨engine0_lines 7, engine0_lines 11⟩

theorem wit_LfoAtZeroDepthAndZeroPhase :
    Fp.isFinite Fp.posZero = true ∧ Fp.isFinite 0xFF7FFFFF#32 = true ∧ Fp.isNan 0x7F800000#32 = false ∧
    Fp.isNan depthDivDefault = false ∧ Fp.isZero depthDivDefault = false ∧
    Fp.sign depthDivDefault = false := by decide

/-- The largest depth and a negative zero. -/
theorem wit_LfoOffsetsStayInRange :
    Fp.isFinite 0x3F7FFFFF#32 = true ∧ Fp.isFinite 0x7F7FFFFF#32 = true ∧
    Fp.ge 0x7F7FFFFF#32 Fp.posZero = true ∧ Fp.ge 0x80000000#32 Fp.posZero = true := by decide +kernel

/-- The ends of the interval, the largest rate and both zeros; a frame of the engine as `INIT` left it. -/
theorem wit_PhaseStaysInUnitInterval :
    48000#32 ≠ 0#32 ∧ inUnit 0#32 ∧ inUnit 0x3F7FFFFF#32 ∧
    Fp.isFinite (Fp.fdiv 0#23 0x7F7FFFFF#32 (Fp.u2f (48000#32).toNat)) = true ∧
    Fp.ge (Fp.fdiv 0#23 0x7F7FFFFF#32 (Fp.u2f (48000#32).toNat)) Fp.posZero = true ∧
    Fp.isZero 0#32 = true ∧ Fp.isZero 0x80000000#32 = true ∧
    (let ph rate := Fp.fadd 0#23 0x3F7FFFFF#32 (Fp.fdiv 0#23 rate (Fp.u2f (48000#32).toNat))
     Fp.isFinite (ph 0x7F7FFFFF#32) = true ∧ 2 ^ 149 ≤ Fp.units (ph 0x7F7FFFFF#32) ∧
     Fp.isFinite (ph 0xC73B8000#32) = true ∧ Fp.units (ph 0xC73B8000#32) < 0) := by
  unfold inUnit
  decide +kernel

/-- A step that runs a frame, and one that writes the rate. -/
theorem wit_PhaseStaysInUnitInterval_step :
    busy0.mode = .ready { engine0 with busy := some block0 } ∧ inUnit engine0.phase ∧
    Engine.RateInDomain { engine0 with busy := some block0 } ∧
    (∃ t e', step busy0 = .next t ∧ t.mode = .ready e') ∧
    ∃ t e', step { busy0 with pending := [.command ⟨.control, 0x0208000000000000#64⟩] } = .next t ∧
      t.mode = .ready e' := by
  refine ⟨rfl, ?_, fun q => ?_, ⟨_, _, rfl, rfl⟩, ⟨_, _, rfl, rfl⟩⟩
  · unfold inUnit
    decide +kernel
  · rw [Fp.fdiv_finite q (by decide +kernel) (by decide +kernel) (by decide +kernel)]
    decide +kernel

/-- The default table; a table whose first sign is −1 starts from the flipped tap (95_test_vectors.md 2.8). -/
theorem wit_WetSumsWithDefaultSigns :
    defaultConfig.tapSign = tapSignDefault ∧ tapFirst .minus 0#32 = 0x80000000#32 := ⟨rfl, by decide⟩

theorem wit_DefaultTapsDoNotAlias :
    checkRate defaultConfig 418#32 = true ∧ checkRate defaultConfig 192000#32 = true := by decide +kernel

theorem wit_DryInputPassesThrough :
    Fp.isFinite 0x80000000#32 = true ∧ Fp.isFinite 0x7F7FFFFF#32 = true ∧
    Fp.isZero 0x7F7FFFFF#32 = false := by decide +kernel

theorem wit_FirstFrameAfterInitIsDry :
    checkRate defaultConfig 418#32 = true ∧
    (∀ t, dlIndex ((construct defaultConfig 418#32).lines.get (defaultConfig.tapLine.get t))
      ((construct defaultConfig 418#32).tapOff.get t).toNat ≠ 0) ∧
    Fp.isFinite 0x3F800000#32 = true := by decide +kernel

/-- The three ways to give the datapath its turn. -/
theorem wit_FrameStepWritesItsTwoWords :
    (∀ pending, State.Inv { busy0 with pending := pending }) ∧
    busy0.mode = .ready { engine0 with busy := some block0 } ∧ DatapathTurn busy0 block0 [] ∧
    DatapathTurn { busy0 with pending := [.frame, .hostRead 9#32] } block0 [.hostRead 9#32] ∧
    DatapathTurn { busy0 with pending := [.command call0] } block0 [.command call0] :=
  ⟨busy0_inv, rfl, .inl ⟨rfl, rfl⟩, .inr (.inl rfl), .inr (.inr ⟨call0, [], rfl, rfl, rfl⟩)⟩

/-- The byte just past the block, with a `SETP`, a `GETP`, a host write of the word after it and a host read pending,
and behind them a `PROC` whose range holds the byte: after four steps and a frame that `PROC` is still pending. -/
theorem wit_BlockStaysInItsRange :
    let evs : List Event := [.command ⟨.control, 0x020B00003F800000#64⟩,
      .command ⟨.control, 0x0304000000000000#64⟩, .hostWrite 3#32 0x3F800000#32, .hostRead 2#32,
      .command ⟨.render, 0x0400000200000000#64⟩]
    (∀ b, State.busy { busy0 with pending := evs } = some b → OutsideBlock 8 b.base b.count) ∧
    (∃ t, run 5 { busy0 with pending := evs } = .next t ∧
      ∀ ev ∈ taken { busy0 with pending := evs } t, LeavesByte 8 ev) ∧
    LeavesByte 15 (.command ⟨.render, 0x0400000100000004#64⟩) := by
  intro evs
  refine ⟨fun b hb => ?_, ?_, ?_⟩
  · obtain rfl : block0 = b := by simpa [State.busy, Mode.busy, busy0] using hb
    exact .inr (by decide)
  · have hs : decode 0x020B00003F800000#64 = .ok (.setp 11#8 0x3F800000#32) := by decide
    have hg : decode 0x0304000000000000#64 = .ok (.getp 4#8) := by decide
    obtain ⟨t, ht, hk⟩ := taken_of_pendingAfter (s := { busy0 with pending := evs })
      (o := run 5 { busy0 with pending := evs }) (n := 1) (by decide +kernel)
    refine ⟨t, ht, ?_⟩
    rw [hk]
    simp [evs, LeavesByte, hs, hg]
  · have hp : decode 0x0400000100000004#64 = .ok (.proc 1#16 4#32) := by decide
    simp [LeavesByte, hp, OutsideBlock]

theorem wit_SilenceStaysSilent :
    engine0.Ok defaultConfig ∧ engine0.Silent ∧ (∀ k, Fp.isFinite (engine0.params.get k) = true) ∧
    Fp.isZero 0x80000000#32 = true ∧
    Fp.isFinite (excursion ((draws0.shift 10).shift 30) defaultConfig (snapshot engine0)
      engine0.sampleRate engine0.phase).left = true ∧
    Fp.isFinite (excursion ((draws0.shift 10).shift 30) defaultConfig (snapshot engine0)
      engine0.sampleRate engine0.phase).right = true := by
  refine ⟨engine0_ok none (by simp), ⟨fun i j => ?_, fun j => rfl, rfl, rfl, rfl⟩, by decide +kernel,
    by decide, by decide +kernel, by decide +kernel⟩
  have : (engine0.lines.get i).buf = [] := by
    revert i
    decide +kernel
  rw [this]
  rfl

end Sys2Proof.Tests
end

-- ==== Sys2Proof/Proofs ====

/-! PROOFS. Integers and binary32 (00_scope.md R11 to R14): capacities and lengths, rounding to nearest, the four
operations, and the LFO's depth and offsets (44_tank.md R171, R172). -/

namespace Sys2Proof.Machine

/-! ### Integers (R11, R12) -/

/-- A power of two below `nextPow2 n` is below `n`. -/
theorem nextPow2_le_of_le_pow {n k : Nat} (h : n ≤ 2 ^ k) : nextPow2 n ≤ 2 ^ k := by
  unfold nextPow2
  split
  · exact Nat.one_le_two_pow
  · have hlog : (n - 1).log2 < k := (Nat.log2_lt (by omega)).2 (by omega)
    exact Nat.pow_le_pow_right two_pos hlog

/-- Settles O36. -/
theorem capacityIsTheLeastPowerOfTwo : Obligations.CapacityIsTheLeastPowerOfTwo := by
  unfold Obligations.CapacityIsTheLeastPowerOfTwo
  exact fun n _ => ⟨nextPow2_eq_pow n, le_nextPow2 n, fun _ => nextPow2_le_of_le_pow⟩

/-- Settles O37: both sides are the floor of one fraction, `roundTimes` with the denominator `2 · 10^places`. -/
theorem lengthsAreRoundedHalfUp : Obligations.LengthsAreRoundedHalfUp := by
  unfold Obligations.LengthsAreRoundedHalfUp
  intro d k
  have hfrac : (d.mantissa : ℚ) / 10 ^ d.places * k + 1 / 2 =
      ((2 * d.mantissa * k + 10 ^ d.places : Nat) : ℚ) / (2 * 10 ^ d.places : Nat) := by
    rw [div_mul_eq_mul_div, div_add_div _ _ (pow_ne_zero _ (OfNat.ofNat_ne_zero 10)) two_ne_zero,
      mul_comm _ 2, mul_comm _ 2, mul_one, ← mul_assoc]
    push_cast
    rfl
  rw [hfrac, Rat.floor_natCast_div_natCast, roundTimes, Int.natCast_div]

namespace Fp

/-! ### The classes of a value, by its magnitude bits -/

theorem isNan_eq_false_iff {x : F32} : isNan x = false ↔ mag x ≤ infMag :=
  decide_eq_false_iff_not.trans not_lt

theorem isInf_iff {x : F32} : isInf x = true ↔ mag x = infMag := decide_eq_true_iff

theorem isFinite_iff {x : F32} : isFinite x = true ↔ mag x < infMag := decide_eq_true_iff

theorem isZero_iff {x : F32} : isZero x = true ↔ mag x = 0 := decide_eq_true_iff

theorem isNan_eq_false_of_isFinite {x : F32} (h : isFinite x = true) : isNan x = false :=
  isNan_eq_false_iff.2 (isFinite_iff.1 h).le

theorem isInf_eq_false_of_isFinite {x : F32} (h : isFinite x = true) : isInf x = false :=
  decide_eq_false (isFinite_iff.1 h).ne

theorem isFinite_of_not {x : F32} (hn : isNan x = false) (hi : isInf x = false) : isFinite x = true :=
  isFinite_iff.2 ((isNan_eq_false_iff.1 hn).lt_of_ne (of_decide_eq_false hi))

theorem isNan_eq_false_of_isInf {x : F32} (h : isInf x = true) : isNan x = false :=
  isNan_eq_false_iff.2 (isInf_iff.1 h).le

theorem isFinite_of_isZero {x : F32} (h : isZero x = true) : isFinite x = true :=
  isFinite_iff.2 ((isZero_iff.1 h).trans_lt (by decide))

theorem isZero_eq_false_of_isInf {x : F32} (h : isInf x = true) : isZero x = false :=
  decide_eq_false fun h0 => absurd ((isInf_iff.1 h).symm.trans h0) (by decide)

theorem isInf_fneg (a : F32) : isInf (fneg a) = isInf a := congrArg (decide <| · = infMag) (fneg_mag a)

/-! ### Units and magnitude bits -/

/-- Magnitude bits as an exponent and a significand: the significand has 24 bits, and fewer only where the
exponent is 0. -/
theorem exists_exponent_significand (k : Nat) :
    ∃ e m, k = e * 2 ^ 23 + m ∧ m < 2 ^ 24 ∧ (e = 0 ∨ 2 ^ 23 ≤ m) := by
  have hk := Nat.div_add_mod' k (2 ^ 23)
  have hmod : k % 2 ^ 23 < 2 ^ 23 := Nat.mod_lt _ (Nat.two_pow_pos 23)
  rcases hexp : k / 2 ^ 23 with _ | e
  · have hsub : k < 2 ^ 23 := Nat.lt_of_div_eq_zero (Nat.two_pow_pos 23) hexp
    exact ⟨0, k, by rw [zero_mul, zero_add], hsub.trans (by decide), .inl rfl⟩
  · rw [hexp, Nat.succ_mul, add_assoc] at hk
    exact ⟨e, _, hk.symm, (Nat.add_lt_add_left hmod _).trans_le (by decide), .inr (Nat.le_add_right _ _)⟩

/-- The value of an exponent and a significand of 24 bits. -/
theorem magUnits_exponent_significand {e m : Nat} (hm : m < 2 ^ 24) (hn : e = 0 ∨ 2 ^ 23 ≤ m) :
    magUnits (e * 2 ^ 23 + m) = m * 2 ^ e := by
  rcases Nat.lt_or_ge m (2 ^ 23) with hsub | hnorm
  · obtain rfl : e = 0 := hn.resolve_right hsub.not_ge
    rw [zero_mul, zero_add, magUnits, if_pos (Nat.div_eq_of_lt hsub), pow_zero, mul_one]
  · obtain ⟨f, rfl⟩ := Nat.exists_eq_add_of_le hnorm
    have hf : f < 2 ^ 23 := by omega
    have hfields : e * 2 ^ 23 + (2 ^ 23 + f) = 2 ^ 23 * (e + 1) + f := by rw [Nat.mul_succ, mul_comm, add_assoc]
    rw [magUnits, hfields, Nat.mul_add_div (Nat.two_pow_pos 23), Nat.mul_add_mod, Nat.div_eq_of_lt hf,
      Nat.mod_eq_of_lt hf, if_neg (Nat.succ_ne_zero e)]
    rfl

/-- A significand of 2^24 has carried into the exponent: that leaves the value what it is. -/
theorem magUnits_exponent_significand_succ {e m : Nat} (hm : m < 2 ^ 24) (hn : e = 0 ∨ 2 ^ 23 ≤ m) :
    magUnits (e * 2 ^ 23 + m + 1) = (m + 1) * 2 ^ e := by
  rcases Nat.lt_or_ge (m + 1) (2 ^ 24) with hlt | hcarry
  · rw [add_assoc]
    exact magUnits_exponent_significand hlt (hn.imp_right Nat.le_succ_of_le)
  · have hfull : m + 1 = 2 ^ 24 := Nat.le_antisymm hm hcarry
    have hnext : e * 2 ^ 23 + 2 ^ 24 = (e + 1) * 2 ^ 23 + 2 ^ 23 := by omega
    rw [add_assoc, hfull, hnext, magUnits_exponent_significand (by decide) (.inr le_rfl),
      pow_succ' 2 e, ← mul_assoc]
    rfl

/-- The order of the magnitudes is the order of the magnitude bits. -/
theorem magUnits_strictMono : StrictMono magUnits := by
  refine strictMono_nat_of_lt_succ fun k => ?_
  obtain ⟨e, m, rfl, hm, hn⟩ := exists_exponent_significand k
  rw [magUnits_exponent_significand hm hn, magUnits_exponent_significand_succ hm hn]
  exact Nat.mul_lt_mul_of_pos_right m.lt_succ_self (Nat.two_pow_pos e)

theorem magUnits_mul_strictMono {den : Nat} (hden : 0 < den) : StrictMono fun k => magUnits k * den :=
  fun _ _ h => Nat.mul_lt_mul_of_pos_right (magUnits_strictMono h) hden

@[simp] theorem magUnits_zero : magUnits 0 = 0 := rfl

theorem magUnits_one : magUnits (mag one) = 2 ^ 149 := rfl

theorem units_eq (x : F32) : units x = if sign x then -(magUnits (mag x) : Int) else magUnits (mag x) := rfl

theorem units_natAbs (x : F32) : (units x).natAbs = magUnits (mag x) := by
  rw [units_eq]
  split
  · rw [Int.natAbs_neg, Int.natAbs_natCast]
  · rw [Int.natAbs_natCast]

theorem units_pack {neg : Bool} {m : Nat} (h : m < 2 ^ 31) :
    units (pack neg m) = if neg then -(magUnits m : Int) else magUnits m := by
  rw [units_eq, sign_pack h, mag_pack h]

theorem magUnits_mag_of_isZero {x : F32} (h : isZero x = true) : magUnits (mag x) = 0 := by
  rw [isZero_iff.1 h, magUnits_zero]

theorem magUnits_mag_pos {x : F32} (h : isZero x = false) : 0 < magUnits (mag x) :=
  magUnits_strictMono (Nat.pos_of_ne_zero (of_decide_eq_false h))

theorem units_ne_zero {x : F32} (h : isZero x = false) : units x ≠ 0 := by
  rw [← Int.natAbs_pos, units_natAbs]
  exact magUnits_mag_pos h

/-! ### Rounding to nearest, ties to even -/

/-- The quotient of `num / d` rounded to nearest, ties to even: the significand of `roundMag`. -/
def roundQuot (num d : Nat) : Nat :=
  if decide (d < 2 * (num % d)) || (decide (2 * (num % d) = d) && decide (num / d % 2 = 1)) then num / d + 1
  else num / d

/-- Rounding goes down from a remainder of at most half the divisor, up from one of at least half; from half
itself to the even neighbour. -/
theorem roundQuot_cases (num d : Nat) :
    (roundQuot num d = num / d ∧ 2 * (num % d) ≤ d ∧ (2 * (num % d) = d → num / d % 2 = 0)) ∨
    (roundQuot num d = num / d + 1 ∧ d ≤ 2 * (num % d) ∧ (2 * (num % d) = d → num / d % 2 = 1)) := by
  simp only [roundQuot, Bool.or_eq_true, Bool.and_eq_true, decide_eq_true_eq]
  split
  · rename_i h
    exact .inr ⟨rfl, h.elim le_of_lt fun h => h.1.ge, fun htie => h.elim (fun h => absurd htie h.ne') And.right⟩
  · rename_i h
    obtain ⟨hle, hodd⟩ := not_or.1 h
    exact .inl ⟨rfl, not_lt.1 hle, fun htie => Nat.mod_two_ne_one.1 fun h => hodd ⟨htie, h⟩⟩

/-- The exponent of `roundMag` scales the quotient to a significand of 24 bits, or of fewer at exponent 0. -/
theorem roundMag_eq_min (num den : Nat) :
    ∃ e, roundMag num den = min (e * 2 ^ 23 + roundQuot num (den * 2 ^ e)) infMag ∧
      num / (den * 2 ^ e) < 2 ^ 24 ∧ (e = 0 ∨ 2 ^ 23 ≤ num / (den * 2 ^ e)) := by
  refine ⟨(num / den).log2 - 23, rfl, ?_⟩
  rw [← Nat.div_div_eq_div_mul]
  generalize num / den = n
  constructor
  · rw [Nat.div_lt_iff_lt_mul (Nat.two_pow_pos _), ← pow_add]
    exact Nat.lt_log2_self.trans_le (Nat.pow_le_pow_right two_pos (by omega))
  · rcases Nat.lt_or_ge 23 n.log2 with hlog | hlog
    · have hn : n ≠ 0 := fun h => absurd (h ▸ hlog) (by decide)
      rw [Nat.le_div_iff_mul_le (Nat.two_pow_pos _), ← pow_add, Nat.add_sub_of_le hlog.le]
      exact .inr (Nat.log2_self_le hn)
    · exact .inl (Nat.sub_eq_zero_of_le hlog)

/-- No magnitude is nearer to `num / den` than that of the bits `K`: the exact value lies on the near side of each
midpoint, and on a midpoint only where the last bit of `K` is even. -/
def IsNearest (K num den : Nat) : Prop :=
  (∀ x < K, magUnits x * den + magUnits K * den ≤ num + num ∧
    (magUnits x * den + magUnits K * den = num + num → K % 2 = 0)) ∧
  ∀ x, K < x → num + num ≤ magUnits K * den + magUnits x * den ∧
    (num + num = magUnits K * den + magUnits x * den → K % 2 = 0)

/-- The lower of two magnitudes that follow each other is nearest up to their midpoint, where it is even. -/
theorem isNearest_lower {k num den : Nat} (hden : 0 < den) (hlo : magUnits k * den ≤ num)
    (hmid : num + num ≤ magUnits k * den + magUnits (k + 1) * den)
    (htie : num + num = magUnits k * den + magUnits (k + 1) * den → k % 2 = 0) : IsNearest k num den := by
  refine ⟨fun x hx => ?_, fun x hx => ?_⟩
  · have hlt := Nat.add_lt_add_of_lt_of_le ((magUnits_mul_strictMono hden hx).trans_le hlo) hlo
    exact ⟨hlt.le, fun h => absurd h hlt.ne⟩
  · have hle := Nat.add_le_add_left ((magUnits_mul_strictMono hden).monotone (show k + 1 ≤ x from hx))
      (magUnits k * den)
    exact ⟨hmid.trans hle, fun h => htie (hmid.antisymm (h ▸ hle))⟩

/-- The upper one is nearest from their midpoint on, where it is even. -/
theorem isNearest_upper {k num den : Nat} (hden : 0 < den) (hup : num < magUnits (k + 1) * den)
    (hmid : magUnits k * den + magUnits (k + 1) * den ≤ num + num)
    (htie : magUnits k * den + magUnits (k + 1) * den = num + num → (k + 1) % 2 = 0) :
    IsNearest (k + 1) num den := by
  refine ⟨fun x hx => ?_, fun x hx => ?_⟩
  · have hle := Nat.add_le_add_right ((magUnits_mul_strictMono hden).monotone (Nat.le_of_lt_succ hx))
      (magUnits (k + 1) * den)
    exact ⟨hle.trans hmid, fun h => htie (hmid.antisymm (h ▸ hle))⟩
  · have hlt := Nat.add_lt_add hup (hup.trans (magUnits_mul_strictMono hden hx))
    exact ⟨hlt.le, fun h => absurd h hlt.ne⟩

/-- Rounding the quotient that the exponent `e` scales gives the nearest magnitude. -/
theorem isNearest_roundQuot {num den e : Nat} (hden : 0 < den) (hlt : num / (den * 2 ^ e) < 2 ^ 24)
    (hnorm : e = 0 ∨ 2 ^ 23 ≤ num / (den * 2 ^ e)) :
    IsNearest (e * 2 ^ 23 + roundQuot num (den * 2 ^ e)) num den := by
  have hscale : ∀ m, m * 2 ^ e * den = m * (den * 2 ^ e) := fun m => by rw [mul_assoc, mul_comm den]
  have hlo := (congrArg (· * den) (magUnits_exponent_significand hlt hnorm)).trans (hscale _)
  have hup := (congrArg (· * den) (magUnits_exponent_significand_succ hlt hnorm)).trans (hscale _)
  have hpar : ∀ q, (e * 2 ^ 23 + q) % 2 = q % 2 := fun q => by rw [pow_succ, ← mul_assoc, Nat.mul_add_mod']
  have hd : 0 < den * 2 ^ e := Nat.mul_pos hden (Nat.two_pow_pos e)
  generalize den * 2 ^ e = d at *
  have hdouble : num + num = num / d * d + num / d * d + 2 * (num % d) := by
    rw [two_mul, add_add_add_comm, Nat.div_add_mod']
  rw [Nat.succ_mul] at hup
  rcases roundQuot_cases num d with ⟨hq, hhalf, htie⟩ | ⟨hq, hhalf, htie⟩ <;> rw [hq]
  · refine isNearest_lower hden (hlo ▸ Nat.div_mul_le_self num d) ?_ ?_ <;> rw [hlo, hup, hdouble, ← add_assoc]
    · exact Nat.add_le_add_left hhalf _
    · exact fun h => (hpar _).trans (htie (Nat.add_left_cancel h))
  · rw [← add_assoc]
    refine isNearest_upper hden (hup ▸ Nat.lt_div_mul_add hd) ?_ ?_ <;> rw [hlo, hup, hdouble, ← add_assoc]
    · exact Nat.add_le_add_left hhalf _
    · exact fun h => Nat.succ_mod_two_eq_zero_iff.2 ((hpar _).trans (htie (Nat.add_left_cancel h).symm))

/-- `roundMag` gives the nearest magnitude, cut at infinity. -/
theorem exists_isNearest (num : Nat) {den : Nat} (hden : 0 < den) :
    ∃ K, roundMag num den = min K infMag ∧ IsNearest K num den := by
  obtain ⟨e, hmin, hlt, hnorm⟩ := roundMag_eq_min num den
  exact ⟨_, hmin, isNearest_roundQuot hden hlt hnorm⟩

/-- A value that is representable is rounded to itself. -/
theorem roundMag_magUnits_mul {m den : Nat} (hden : 0 < den) (hm : m ≤ infMag) :
    roundMag (magUnits m * den) den = m := by
  obtain ⟨K, hmin, hnear⟩ := exists_isNearest (magUnits m * den) hden
  rw [hmin]
  rcases Nat.lt_trichotomy m K with h | rfl | h
  · exact absurd (hnear.1 m h).1 (Nat.add_lt_add_left (magUnits_mul_strictMono hden h) _).not_ge
  · exact min_eq_left hm
  · exact absurd (hnear.2 m h).1 (Nat.add_lt_add_right (magUnits_mul_strictMono hden h) _).not_ge

/-- The largest finite value, and the value that the magnitude bits of infinity would have: a tie between the two
is half a unit in the last place above the largest finite value. -/
theorem magUnits_overflow_midpoint :
    magUnits (infMag - 1) + magUnits infMag = (2 ^ 25 - 1) * 2 ^ 252 + (2 ^ 25 - 1) * 2 ^ 252 := rfl

/-- Rounding overflows from half a unit in the last place above the largest finite value on. -/
theorem roundMag_eq_infMag_iff {num den : Nat} (hden : 0 < den) :
    roundMag num den = infMag ↔ (2 ^ 25 - 1) * 2 ^ 252 * den ≤ num := by
  obtain ⟨K, hmin, hnear⟩ := exists_isNearest num hden
  have hmid := congrArg (· * den) magUnits_overflow_midpoint
  simp only [add_mul _ _ den] at hmid
  generalize (2 ^ 25 - 1) * 2 ^ 252 * den = mid at hmid ⊢
  have hmono := (magUnits_mul_strictMono hden).monotone
  rw [hmin, min_eq_right_iff]
  constructor
  · intro hinf
    have hle := (Nat.add_le_add_left (hmono hinf) _).trans
      (hnear.1 (infMag - 1) (Nat.lt_of_lt_of_le (Nat.sub_one_lt (by decide)) hinf)).1
    exact Nat.le_of_not_lt fun h => (Nat.add_lt_add h h).not_ge (hmid ▸ hle)
  · refine fun hover => Nat.le_of_not_lt fun hlt => ?_
    obtain ⟨hle, htie⟩ := hnear.2 infMag hlt
    have hover' := hmid ▸ Nat.add_le_add hover hover
    have hlast := Nat.add_le_add_right (hmono (Nat.le_sub_one_of_lt hlt)) (magUnits infMag * den)
    have heven := htie (hle.antisymm (hlast.trans hover'))
    have hodd : K ≠ infMag - 1 := fun h => absurd (h ▸ heven) (by decide)
    have hstrict := magUnits_mul_strictMono hden (Nat.lt_of_le_of_ne (Nat.le_sub_one_of_lt hlt) hodd)
    exact ((Nat.add_lt_add_right hstrict _).trans_le hover').not_ge hle

/-! ### A rounded result with its sign -/

/-- A number `r` that is on the near side to `n` of its midpoint with `y`, or on that midpoint only if `tie`. -/
theorem natAbs_sub_le_of_midpoint {n y r : Int} {tie : Prop}
    (hlt : y < r → y + r ≤ n + n ∧ (n + n ≤ y + r → tie)) (hgt : r < y → n + n ≤ r + y ∧ (r + y ≤ n + n → tie)) :
    (r - n).natAbs ≤ (y - n).natAbs ∧ ((r - n).natAbs = (y - n).natAbs → y = r ∨ tie) := by
  rcases lt_trichotomy y r with h | rfl | h
  · obtain ⟨hmid, htie⟩ := hlt h
    exact ⟨by omega, fun heq => .inr (htie (by omega))⟩
  · exact ⟨le_rfl, fun _ => .inl rfl⟩
  · obtain ⟨hmid, htie⟩ := hgt h
    exact ⟨by omega, fun heq => .inr (htie (by omega))⟩

/-- A number below the value of some magnitude bits, and itself the value of some up to its sign, is at most the
value of smaller bits, or else the bits are 0. -/
theorem exists_le_magUnits_of_lt {x k : Nat} {y : Int} (hy : y.natAbs = magUnits x) (hlt : y < magUnits k) :
    (∃ z < k, y ≤ magUnits z) ∨ k = 0 := by
  rcases Int.natAbs_eq y with hpos | hneg
  · rw [hy] at hpos
    exact .inl ⟨x, magUnits_strictMono.lt_iff_lt.1 (Int.ofNat_lt.1 (hpos ▸ hlt)), hpos.le⟩
  · have hy0 : y ≤ 0 := hneg.trans_le (Int.neg_nonpos_of_nonneg (Int.natCast_nonneg _))
    exact (Nat.eq_zero_or_pos k).symm.imp_left fun h => ⟨0, h, hy0⟩

/-- The nearest magnitude is nearest among the values of either sign. -/
theorem IsNearest.natAbs_sub_le {K num den x : Nat} {y : Int} (hden : 0 < den) (hK : IsNearest K num den)
    (hy : y.natAbs = magUnits x) :
    ((magUnits K : Int) * den - num).natAbs ≤ (y * den - num).natAbs ∧
    (((magUnits K : Int) * den - num).natAbs = (y * den - num).natAbs → y = magUnits K ∨ K % 2 = 0) := by
  have hden' : (0 : Int) < den := Int.natCast_pos.2 hden
  have hbelow : y * den < magUnits K * den →
      y * den + magUnits K * den ≤ num + num ∧ ((num : Int) + num ≤ y * den + magUnits K * den → K % 2 = 0) := by
    intro hlt
    rcases exists_le_magUnits_of_lt hy (Int.lt_of_mul_lt_mul_right hlt hden'.le) with ⟨z, hz, hyz⟩ | rfl
    · obtain ⟨hmid, heven⟩ := hK.1 z hz
      have hyz' := Int.add_le_add_right (Int.mul_le_mul_of_nonneg_right hyz hden'.le) (magUnits K * den)
      exact ⟨hyz'.trans (by exact_mod_cast hmid),
        fun h => heven (hmid.antisymm (by exact_mod_cast h.trans hyz'))⟩
    · rw [magUnits_zero, Nat.cast_zero, zero_mul] at hlt ⊢
      exact ⟨(add_zero _).trans_le (hlt.le.trans (Int.natCast_nonneg (num + num))), fun _ => rfl⟩
  have habove : magUnits K * den < y * den →
      (num : Int) + num ≤ magUnits K * den + y * den ∧ (magUnits K * den + y * den ≤ num + num → K % 2 = 0) := by
    intro hgt
    have hgt' := Int.lt_of_mul_lt_mul_right hgt hden'.le
    obtain rfl : y = magUnits x := by rw [← hy, Int.natAbs_of_nonneg ((Int.natCast_nonneg _).trans hgt'.le)]
    obtain ⟨hmid, heven⟩ := hK.2 x (magUnits_strictMono.lt_iff_lt.1 (Int.ofNat_lt.1 hgt'))
    exact ⟨by exact_mod_cast hmid, fun h => heven (hmid.antisymm (by exact_mod_cast h))⟩
  obtain ⟨hle, htie⟩ := natAbs_sub_le_of_midpoint hbelow habove
  exact ⟨hle, fun h => (htie h).imp_left (Int.eq_of_mul_eq_mul_right hden'.ne')⟩

/-- The number with this sign and magnitude. -/
def signed (neg : Bool) (m : Nat) : Int := if neg then -(m : Int) else m

theorem units_eq_signed (x : F32) : units x = signed (sign x) (magUnits (mag x)) := rfl

theorem signed_natAbs (u : Int) : signed (decide (u < 0)) u.natAbs = u := by
  unfold signed
  split <;> rename_i h <;> simp only [decide_eq_true_eq, not_lt] at h
  · rw [Int.ofNat_natAbs_of_nonpos h.le, neg_neg]
  · rw [Int.natAbs_of_nonneg h]

theorem signed_zero (neg : Bool) : signed neg 0 = 0 := by
  cases neg <;> rfl

theorem signed_natAbs_eq (neg : Bool) (m : Nat) : (signed neg m).natAbs = m := by
  cases neg
  · exact Int.natAbs_natCast m
  · exact (Int.natAbs_neg _).trans (Int.natAbs_natCast m)

/-- A magnitude, rounded, with its sign, is the nearest binary32. -/
theorem nearest_pack_roundMag (neg : Bool) (m : Nat) {den : Nat} (hden : 0 < den) :
    Nearest (pack neg (roundMag m den)) (signed neg m) den := by
  obtain ⟨K, hmin, hK⟩ := exists_isNearest m hden
  have hlt := roundMag_lt m den
  refine ⟨isNan_pack_roundMag neg m den, fun h => ?_, fun h => ?_, ?_, fun hfin x _ => ?_⟩
  · rw [sign_pack hlt]
    cases neg
    · exact absurd h (Int.natCast_nonneg m).not_gt
    · rfl
  · rw [sign_pack hlt]
    cases neg
    · rfl
    · exact absurd h (Int.neg_nonpos_of_nonneg (Int.natCast_nonneg m)).not_gt
  · rw [isInf_iff, mag_pack hlt, roundMag_eq_infMag_iff hden, signed_natAbs_eq]
  · rw [isFinite_iff, mag_pack hlt, hmin] at hfin
    rw [min_eq_left (min_lt_iff.1 hfin |>.resolve_right (lt_irrefl _)).le] at hmin
    rw [units_eq_signed (pack _ _), sign_pack hlt, mag_pack hlt, hmin]
    cases neg
    · exact hK.natAbs_sub_le hden (units_natAbs x)
    · have hflip : ∀ u : Int, (-u * den - -(m : Int)).natAbs = (u * den - m).natAbs := fun u => by
        rw [neg_mul, neg_sub_neg, ← Int.natAbs_neg, neg_sub]
      rw [← neg_neg (units x), signed, signed, if_pos rfl, if_pos rfl, hflip, hflip, neg_inj]
      exact hK.natAbs_sub_le hden (by rw [Int.natAbs_neg, units_natAbs])

/-! ### Each operation by the classes of its operands -/

theorem infOf_pack (neg : Bool) : InfOf (pack neg infMag) neg := by
  cases neg <;> exact ⟨by decide, by decide⟩

theorem zeroOf_pack (neg : Bool) : ZeroOf (pack neg 0) neg := by
  cases neg <;> exact ⟨by decide, by decide⟩

theorem fadd_inf_finite (q : NanBits) {a b : F32} (ha : isInf a = true) (hb : isFinite b = true) :
    fadd q a b = a := by
  simp [fadd, isNan_eq_false_of_isInf ha, ha, isNan_eq_false_of_isFinite hb, isInf_eq_false_of_isFinite hb]

theorem fadd_finite_inf (q : NanBits) {a b : F32} (ha : isFinite a = true) (hb : isInf b = true) :
    fadd q a b = b := by
  simp [fadd, isNan_eq_false_of_isFinite ha, isInf_eq_false_of_isFinite ha, isNan_eq_false_of_isInf hb, hb]

/-- Two infinities of unlike sign cancel. -/
theorem fadd_inf_inf (q : NanBits) {a b : F32} (ha : isInf a = true) (hb : isInf b = true) :
    fadd q a b = if sign a != sign b then quietNan q else a := by
  simp [fadd, isNan_eq_false_of_isInf, ha, hb]

theorem fsub_eq (q : NanBits) (a b : F32) : fsub q a b = fadd q a (fneg b) := rfl

theorem fsub_inf_finite (q : NanBits) {a b : F32} (ha : isInf a = true) (hb : isFinite b = true) :
    fsub q a b = a :=
  fadd_inf_finite q ha ((isFinite_fneg b).trans hb)

theorem fsub_finite_inf (q : NanBits) {a b : F32} (ha : isFinite a = true) (hb : isInf b = true) :
    fsub q a b = fneg b :=
  fadd_finite_inf q ha ((isInf_fneg b).trans hb)

/-- Two infinities of one sign cancel in a difference. -/
theorem fsub_inf_inf (q : NanBits) {a b : F32} (ha : isInf a = true) (hb : isInf b = true) :
    fsub q a b = if sign a != sign b then a else quietNan q := by
  rw [fsub_eq, fadd_inf_inf q ha ((isInf_fneg b).trans hb), fneg_sign]
  cases sign a <;> cases sign b <;> rfl

theorem fmul_inf (q : NanBits) {a b : F32} (ha : isNan a = false) (hb : isNan b = false)
    (h : (isInf a || isInf b) = true) :
    fmul q a b = if isZero a || isZero b then quietNan q else pack (sign a != sign b) infMag := by
  simp only [fmul, ha, hb, h, Bool.or_self, if_true, if_false, Bool.false_eq_true]

theorem fdiv_inf_finite (q : NanBits) {a b : F32} (ha : isInf a = true) (hb : isFinite b = true) :
    fdiv q a b = pack (sign a != sign b) infMag := by
  simp [fdiv, isNan_eq_false_of_isInf ha, ha, isNan_eq_false_of_isFinite hb, isInf_eq_false_of_isFinite hb]

theorem fdiv_finite_inf (q : NanBits) {a b : F32} (ha : isFinite a = true) (hb : isInf b = true) :
    fdiv q a b = pack (sign a != sign b) 0 := by
  simp [fdiv, isNan_eq_false_of_isFinite ha, isInf_eq_false_of_isFinite ha, isNan_eq_false_of_isInf hb, hb]

theorem fdiv_inf_inf (q : NanBits) {a b : F32} (ha : isInf a = true) (hb : isInf b = true) :
    fdiv q a b = quietNan q := by
  simp [fdiv, isNan_eq_false_of_isInf, ha, hb]

theorem fdiv_zero (q : NanBits) {a b : F32} (ha : isFinite a = true) (hb : isZero b = true) :
    fdiv q a b = if isZero a then quietNan q else pack (sign a != sign b) infMag := by
  have hbf := isFinite_of_isZero hb
  simp [fdiv, isNan_eq_false_of_isFinite, isInf_eq_false_of_isFinite, ha, hbf, hb]

theorem fdiv_nan (q : NanBits) {a b : F32} (h : (isNan a || isNan b) = true) : fdiv q a b = quietNan q := by
  simp [fdiv, h]

theorem fsub_nan (q : NanBits) {a b : F32} (h : (isNan a || isNan b) = true) : fsub q a b = quietNan q :=
  fadd_nan q (by rwa [fneg_isNan])

/-! ### Finite operands: rounded once -/

theorem ofUnits_eq (u : Int) : ofUnits u = pack (decide (u < 0)) (roundMag u.natAbs 1) := rfl

/-- A sum of finite values is its exact magnitude rounded, with its exact sign; `fadd` chooses the sign of a zero. -/
theorem fadd_nearest (q : NanBits) {a b : F32} (ha : isFinite a = true) (hb : isFinite b = true) :
    Nearest (fadd q a b) (units a + units b) 1 := by
  rw [fadd_finite q ha hb]
  split
  · rename_i hzero
    rw [hzero, ← signed_zero (sign a && sign b), ← roundMag_zero 1]
    exact nearest_pack_roundMag _ 0 one_pos
  · have hnear := nearest_pack_roundMag (decide (units a + units b < 0)) (units a + units b).natAbs one_pos
    rwa [signed_natAbs] at hnear

theorem fsub_nearest (q : NanBits) {a b : F32} (ha : isFinite a = true) (hb : isFinite b = true) :
    Nearest (fsub q a b) (units a - units b) 1 := by
  have h := fadd_nearest q ha ((isFinite_fneg b).trans hb)
  rwa [fneg_units, ← sub_eq_add_neg] at h

/-- The product of the values has the product of the magnitudes and the product of the signs. -/
theorem signed_mul_signed (s t : Bool) (m n : Nat) : signed s m * signed t n = signed (s != t) (m * n) := by
  cases s <;> cases t <;> simp [signed]

theorem fmul_nearest (q : NanBits) {a b : F32} (ha : isFinite a = true) (hb : isFinite b = true) :
    Nearest (fmul q a b) (units a * units b) (2 ^ 149) := by
  rw [fmul_finite q ha hb, units_eq_signed, units_eq_signed, signed_mul_signed]
  exact nearest_pack_roundMag _ _ (Nat.two_pow_pos 149)

theorem sign_signed (s : Bool) {m : Nat} (hm : 0 < m) : (signed s m).sign = signed s 1 := by
  cases s
  · exact Int.sign_natCast_of_ne_zero hm.ne'
  · exact (Int.sign_neg _).trans (congrArg _ (Int.sign_natCast_of_ne_zero hm.ne'))

theorem fdiv_nearest (q : NanBits) {a b : F32} (ha : isFinite a = true) (hb : isFinite b = true)
    (hz : isZero b = false) :
    Nearest (fdiv q a b) (units a * 2 ^ 149 * (units b).sign) (units b).natAbs := by
  have hpos := magUnits_mag_pos hz
  have hpow : (2 : Int) ^ 149 = signed false (2 ^ 149) := by
    rw [signed, if_neg Bool.false_ne_true, Nat.cast_pow, Nat.cast_ofNat]
  rw [fdiv_finite q ha hb hz, units_natAbs, units_eq_signed, units_eq_signed b, sign_signed _ hpos, hpow,
    signed_mul_signed, signed_mul_signed, mul_one, Bool.bne_false]
  exact nearest_pack_roundMag _ _ hpos

/-! ### Signs and zeros of results -/

theorem sign_fmul (q : NanBits) {a b : F32} (ha : isFinite a = true) (hb : isFinite b = true) :
    sign (fmul q a b) = (sign a != sign b) := by
  rw [fmul_finite q ha hb, sign_pack (roundMag_lt _ _)]

theorem sign_fdiv (q : NanBits) {a b : F32} (ha : isFinite a = true) (hb : isFinite b = true)
    (hz : isZero b = false) : sign (fdiv q a b) = (sign a != sign b) := by
  rw [fdiv_finite q ha hb hz, sign_pack (roundMag_lt _ _)]

/-- An exact zero sum is a negative zero only of two negative zeros. -/
theorem zeroOf_fadd (q : NanBits) {a b : F32} (ha : isFinite a = true) (hb : isFinite b = true)
    (h : units a + units b = 0) : ZeroOf (fadd q a b) (sign a && sign b) := by
  rw [fadd_finite q ha hb, if_pos h]
  exact zeroOf_pack _

theorem zeroOf_fsub (q : NanBits) {a b : F32} (ha : isFinite a = true) (hb : isFinite b = true)
    (h : units a - units b = 0) : ZeroOf (fsub q a b) (sign a && !sign b) := by
  rw [← fneg_sign]
  exact zeroOf_fadd q ha ((isFinite_fneg b).trans hb) (by rw [fneg_units, ← sub_eq_add_neg, h])

/-- A product with a zero is a zero, of the product's sign. -/
theorem fmul_isZero (q : NanBits) {a b : F32} (ha : isFinite a = true) (hb : isFinite b = true)
    (h : (isZero a || isZero b) = true) : fmul q a b = pack (sign a != sign b) 0 := by
  have hprod : magUnits (mag a) * magUnits (mag b) = 0 :=
    Nat.mul_eq_zero.2 ((Bool.or_eq_true _ _ ▸ h).imp magUnits_mag_of_isZero magUnits_mag_of_isZero)
  rw [fmul_finite q ha hb, hprod, roundMag_zero]

/-- A zero over what is no zero is a zero, of the quotient's sign. -/
theorem fdiv_isZero (q : NanBits) {a b : F32} (ha : isZero a = true) (hb : isFinite b = true)
    (hz : isZero b = false) : fdiv q a b = pack (sign a != sign b) 0 := by
  rw [fdiv_finite q (isFinite_of_isZero ha) hb hz, magUnits_mag_of_isZero ha, zero_mul, roundMag_zero]

/-- Settles O38: a rounded result is nearest by `nearest_pack_roundMag`; every other result is a constant that the
classes of the operands fix. -/
theorem arithmeticIsRoundedToNearest : Obligations.ArithmeticIsRoundedToNearest := by
  unfold Obligations.ArithmeticIsRoundedToNearest
  intro q a b hna hnb sx
  refine ⟨fun ha hb => ?finite, fun ha hb => ?infFinite, fun ha hb => ?finiteInf, fun ha hb => ?infInf, ?product⟩
  case finite =>
    refine ⟨fadd_nearest q ha hb, fsub_nearest q ha hb, fmul_nearest q ha hb, sign_fmul q ha hb, zeroOf_fadd q ha hb,
      zeroOf_fsub q ha hb, fun h => fmul_isZero q ha hb h ▸ zeroOf_pack sx, fun hz => ⟨fdiv_nearest q ha hb hz,
      sign_fdiv q ha hb hz, fun haz => fdiv_isZero q haz hb hz ▸ zeroOf_pack sx⟩, fun hz => ?_⟩
    rw [fdiv_zero q ha hz]
    split
    · exact isNan_quietNan q
    · exact infOf_pack sx
  case infFinite =>
    exact ⟨fadd_inf_finite q ha hb, fsub_inf_finite q ha hb, fdiv_inf_finite q ha hb ▸ infOf_pack sx⟩
  case finiteInf =>
    refine ⟨fadd_finite_inf q ha hb, ?_, fdiv_finite_inf q ha hb ▸ zeroOf_pack sx⟩
    exact fsub_finite_inf q ha hb ▸ ⟨(isInf_fneg b).trans hb, fneg_sign b⟩
  case infInf =>
    cases hs : sign a != sign b <;>
      simp [sx, hs, fadd_inf_inf q ha hb, fsub_inf_inf q ha hb, fdiv_inf_inf q ha hb]
  case product =>
    intro h
    rw [fmul_inf q hna hnb h]
    split
    · exact isNan_quietNan q
    · exact infOf_pack sx

/-! ### NaN results (U2) -/

theorem isNan_pack {neg : Bool} {m : Nat} (h : m ≤ infMag) : isNan (pack neg m) = false :=
  isNan_eq_false_iff.2 ((mag_pack (lt_of_le_of_lt h (by decide))).trans_le h)

theorem fadd_eq_quietNan_or (q : NanBits) (a b : F32) : fadd q a b = quietNan q ∨ isNan (fadd q a b) = false := by
  rcases hnan : isNan a || isNan b
  · obtain ⟨hna, hnb⟩ := Bool.or_eq_false_iff.1 hnan
    rcases hia : isInf a <;> rcases hib : isInf b
    · exact .inr (fadd_nearest q (isFinite_of_not hna hia) (isFinite_of_not hnb hib)).1
    · exact .inr ((congrArg isNan (fadd_finite_inf q (isFinite_of_not hna hia) hib)).trans hnb)
    · exact .inr ((congrArg isNan (fadd_inf_finite q hia (isFinite_of_not hnb hib))).trans hna)
    · rw [fadd_inf_inf q hia hib]
      split
      · exact .inl rfl
      · exact .inr hna
  · exact .inl (fadd_nan q hnan)

theorem fmul_eq_quietNan_or (q : NanBits) (a b : F32) : fmul q a b = quietNan q ∨ isNan (fmul q a b) = false := by
  rcases hnan : isNan a || isNan b
  · obtain ⟨hna, hnb⟩ := Bool.or_eq_false_iff.1 hnan
    rcases hinf : isInf a || isInf b
    · obtain ⟨hia, hib⟩ := Bool.or_eq_false_iff.1 hinf
      exact .inr (fmul_nearest q (isFinite_of_not hna hia) (isFinite_of_not hnb hib)).1
    · rw [fmul_inf q hna hnb hinf]
      split
      · exact .inl rfl
      · exact .inr (isNan_pack le_rfl)
  · exact .inl (fmul_nan q hnan)

theorem fdiv_eq_quietNan_or (q : NanBits) (a b : F32) : fdiv q a b = quietNan q ∨ isNan (fdiv q a b) = false := by
  rcases hnan : isNan a || isNan b
  · obtain ⟨hna, hnb⟩ := Bool.or_eq_false_iff.1 hnan
    rcases hia : isInf a <;> rcases hib : isInf b
    · rcases hz : isZero b
      · exact .inr (fdiv_nearest q (isFinite_of_not hna hia) (isFinite_of_not hnb hib) hz).1
      · rw [fdiv_zero q (isFinite_of_not hna hia) hz]
        split
        · exact .inl rfl
        · exact .inr (isNan_pack le_rfl)
    · exact .inr (fdiv_finite_inf q (isFinite_of_not hna hia) hib ▸ isNan_pack (Nat.zero_le _))
    · exact .inr (fdiv_inf_finite q hia (isFinite_of_not hnb hib) ▸ isNan_pack le_rfl)
    · exact .inl (fdiv_inf_inf q hia hib)
  · exact .inl (fdiv_nan q hnan)

/-- A quiet NaN is its sign bit `q / 2^22`, nine ones, and the payload `q % 2^22`. -/
theorem toNat_quietNan (q : NanBits) :
    (quietNan q).toNat = 2 ^ 22 * (2 ^ 9 * (q.toNat / 2 ^ 22) + 0x1FF) + q.toNat % 2 ^ 22 := by
  have hbit : sign (quietNan q) = decide (q.toNat / 2 ^ 22 % 2 = 1) := by
    have hmag := mag_lt (quietNan q)
    rw [mag_quietNan] at hmag
    rw [quietNan, sign_pack hmag]
    exact Nat.testBit_eq_decide_div_mod_eq
  have hsign : q.toNat / 2 ^ 22 < 2 := Nat.div_lt_of_lt_mul q.isLt
  have hhigh : ∀ s < 2, (if decide (s % 2 = 1) = true then 2 ^ 31 else 0) + (infMag + 2 ^ 22) =
      2 ^ 22 * (2 ^ 9 * s + 0x1FF) := by decide
  rw [toNat_eq, mag_quietNan, hbit, ← add_assoc, hhigh _ hsign]

/-- The fields of a quiet NaN: exponent and quiet bit all ones, sign and payload the free bits. -/
theorem quietNan_fields (q : NanBits) :
    (quietNan q).extractLsb' 22 9 = 0x1FF#9 ∧ (quietNan q).extractLsb' 31 1 = q.extractLsb' 22 1 ∧
    (quietNan q).extractLsb' 0 22 = q.extractLsb' 0 22 := by
  have hpay : q.toNat % 2 ^ 22 < 2 ^ 22 := Nat.mod_lt _ (Nat.two_pow_pos 22)
  have hhigh : (quietNan q).toNat / 2 ^ 22 = 2 ^ 9 * (q.toNat / 2 ^ 22) + 0x1FF := by
    rw [toNat_quietNan, Nat.mul_add_div (Nat.two_pow_pos 22), Nat.div_eq_of_lt hpay, add_zero]
  refine ⟨?_, ?_, ?_⟩ <;> apply BitVec.eq_of_toNat_eq <;>
    rw [BitVec.extractLsb'_toNat, Nat.shiftRight_eq_div_pow]
  · rw [hhigh, Nat.mul_add_mod]
    rfl
  · rw [show 2 ^ 31 = 2 ^ 22 * 2 ^ 9 from rfl, ← Nat.div_div_eq_div_mul, hhigh,
      Nat.mul_add_div (Nat.two_pow_pos 9), BitVec.extractLsb'_toNat, Nat.shiftRight_eq_div_pow]
    rfl
  · rw [BitVec.extractLsb'_toNat, Nat.shiftRight_eq_div_pow, pow_zero, Nat.div_one, Nat.div_one, toNat_quietNan,
      Nat.mul_add_mod, Nat.mod_mod]

/-- Settles O39. -/
theorem nanResultsAreQuietAndFree : Obligations.NanResultsAreQuietAndFree := by
  unfold Obligations.NanResultsAreQuietAndFree
  refine fun q a b => ⟨⟨isNan_quietNan q, quietNan_fields q⟩, ?_⟩
  have hresolve : ∀ {r : F32}, r = quietNan q ∨ isNan r = false → isNan r = true → r = quietNan q :=
    fun h hr => h.resolve_right (by simp [hr])
  simp only [List.forall_mem_cons]
  exact ⟨⟨hresolve (fadd_eq_quietNan_or q a b), fadd_nan q⟩,
    ⟨hresolve (fadd_eq_quietNan_or q a (fneg b)), fsub_nan q⟩,
    ⟨hresolve (fmul_eq_quietNan_or q a b), fmul_nan q⟩,
    ⟨hresolve (fdiv_eq_quietNan_or q a b), fdiv_nan q⟩, List.forall_mem_nil _⟩

/-! ### Exact results -/

/-- A sum that a finite value other than a zero represents is that value. -/
theorem fadd_exact (q : NanBits) {a b x : F32} (ha : isFinite a = true) (hb : isFinite b = true)
    (hx : isFinite x = true) (h0 : isZero x = false) (h : units a + units b = units x) : fadd q a b = x := by
  have hmag := roundMag_magUnits_mul (m := mag x) one_pos (isFinite_iff.1 hx).le
  have hneg : decide (units x < 0) = sign x := by
    rw [units_eq]
    cases sign x <;> simp [magUnits_mag_pos h0]
  rw [fadd_finite q ha hb, h, if_neg (units_ne_zero h0), ofUnits_eq, hneg, units_natAbs, ← mul_one (magUnits _), hmag,
    pack_sign_mag]

/-- `1.0` is the identity of `fmul`, bit for bit. -/
theorem fmul_one (q : NanBits) {a : F32} (ha : isNan a = false) : fmul q a one = a := by
  rcases class_cases a with ⟨h, -, -⟩ | ⟨-, h, -⟩ | ⟨-, -, h⟩
  · exact absurd h (by simp [ha])
  · rw [fmul_inf q ha (by decide) (by simp [h]), isZero_eq_false_of_isInf h,
      show isZero one = false by decide, if_neg (by decide),
      ← isInf_iff.1 h, show sign one = false by decide, Bool.bne_false, pack_sign_mag]
  · rw [fmul_finite q h (by decide), magUnits_one, roundMag_magUnits_mul (Nat.two_pow_pos 149) (isFinite_iff.1 h).le,
      show sign one = false by decide, Bool.bne_false, pack_sign_mag]

theorem fmul_posZero (q : NanBits) {x : F32} (hx : isFinite x = true) (hs : sign x = false) :
    fmul q posZero x = posZero := by
  rw [fmul_isZero q (by decide) hx (by simp [show isZero posZero = true by decide]), hs]
  decide

theorem fdiv_posZero (q : NanBits) {x : F32} (hn : isNan x = false) (hz : isZero x = false) (hs : sign x = false) :
    fdiv q posZero x = posZero := by
  have hzero : pack (sign posZero != false) 0 = posZero := by decide
  rcases class_cases x with ⟨h, -, -⟩ | ⟨-, h, -⟩ | ⟨-, -, h⟩
  · exact absurd h (by simp [hn])
  · rw [fdiv_finite_inf q (by decide) h, hs, hzero]
  · rw [fdiv_isZero q (by decide) h hz, hs, hzero]

/-- A rounded magnitude below the overflow threshold is that of a finite value. -/
theorem isFinite_pack_roundMag {neg : Bool} {num den : Nat} (hden : 0 < den)
    (h : num < (2 ^ 25 - 1) * 2 ^ 252 * den) : isFinite (pack neg (roundMag num den)) = true := by
  rw [isFinite_iff, mag_pack (roundMag_lt _ _)]
  exact (roundMag_le _ _).lt_of_ne fun he => absurd ((roundMag_eq_infMag_iff hden).1 he) h.not_ge

/-- A 32-bit integer converts to a finite value that is not negative. -/
theorem u2f_isFinite_sign (n : BitVec 32) : isFinite (u2f n.toNat) = true ∧ sign (u2f n.toNat) = false := by
  have := n.isLt
  exact ⟨isFinite_pack_roundMag one_pos (by omega), sign_pack (roundMag_lt _ _)⟩

/-! ### The LFO (R14, R171, R172) -/

theorem mag_unitInterval_le {p : F32} (hp : isFinite p = true) (raw : F32) : mag (unitInterval p raw) ≤ mag one := by
  unfold unitInterval
  split
  · exact le_rfl
  · rename_i h
    simpa [hp] using h

/-- Both functions give a constant in `[−1, 1]` at phase 0 and a value of the unit interval elsewhere. -/
theorem mag_ite_unitInterval_le {p v : F32} (hp : isFinite p = true) (hv : mag v ≤ mag one) (raw : F32) :
    mag (if p = posZero then v else unitInterval p raw) ≤ mag one := by
  split
  · exact hv
  · exact mag_unitInterval_le hp raw

theorem mag_cos2pi_le {p : F32} (hp : isFinite p = true) : mag (cos2pi p) ≤ mag one :=
  mag_ite_unitInterval_le hp le_rfl _

theorem mag_sin2pi_le {p : F32} (hp : isFinite p = true) : mag (sin2pi p) ≤ mag one :=
  mag_ite_unitInterval_le hp (Nat.zero_le _) _

/-- `1 + x` for `x` in `[−1, 1]` is finite and has no sign bit, an exact zero sum included. -/
theorem fadd_one_isFinite_sign (q : NanBits) {x : F32} (hx : mag x ≤ mag one) :
    isFinite (fadd q one x) = true ∧ sign (fadd q one x) = false := by
  have hfin : isFinite x = true := isFinite_iff.2 (hx.trans_lt (by decide))
  have hle : (units x).natAbs ≤ 2 ^ 149 := by
    rw [units_natAbs, ← magUnits_one]
    exact magUnits_strictMono.monotone hx
  rw [fadd_finite q (by decide) hfin, show units one = 2 ^ 149 from rfl]
  split
  · cases sign x <;> decide
  · rw [ofUnits_eq]
    refine ⟨isFinite_pack_roundMag one_pos (by omega), ?_⟩
    rw [sign_pack (roundMag_lt _ _), decide_eq_false_iff_not]
    omega

end Fp

open Fp in
/-- A zero depth switches the modulation off (R171). -/
theorem excursionDepth_posZero (d : Draws) {depthDiv : F32} (sr : BitVec 32) (hn : isNan depthDiv = false)
    (hz : isZero depthDiv = false) (hs : sign depthDiv = false) :
    excursionDepth d posZero depthDiv sr = posZero := by
  obtain ⟨hfin, hsign⟩ := u2f_isFinite_sign sr
  rw [excursionDepth, fmul_posZero _ hfin hsign, fdiv_posZero _ hn hz hs]

open Fp in
theorem lfoOffset_posZero (d : Draws) {lfo : F32} (h : mag lfo ≤ mag one) :
    lfoOffset d posZero lfo = posZero := by
  obtain ⟨hfin, hsign⟩ := fadd_one_isFinite_sign (d.nan 0) h
  exact fmul_posZero _ hfin hsign

open Fp in
/-- At phase 0 the cosine is 1.0: the offset is twice the depth (R172). -/
theorem lfoOffset_one (d : Draws) (ed : F32) : lfoOffset d ed one = fmul (d.nan 1) ed two := by
  have hsum : fadd (d.nan 0) one one = two :=
    fadd_exact _ (by decide) (by decide) (by decide) (by decide) rfl
  exact congrArg (fmul (d.nan 1) ed) hsum

open Fp in
/-- At phase 0 the sine is +0.0: the offset is the depth itself (R172). -/
theorem lfoOffset_sin_zero (d : Draws) {ed : F32} (h : isNan ed = false) : lfoOffset d ed posZero = ed := by
  have hsum : fadd (d.nan 0) one posZero = one :=
    fadd_exact _ (by decide) (by decide) (by decide) (by decide) rfl
  exact (congrArg (fmul (d.nan 1) ed) hsum).trans (fmul_one _ h)

/-- Settles O50. -/
theorem lfoAtZeroDepthAndZeroPhase : Obligations.LfoAtZeroDepthAndZeroPhase := by
  unfold Obligations.LfoAtZeroDepthAndZeroPhase
  refine ⟨fun p hp => ⟨Fp.mag_cos2pi_le hp, Fp.mag_sin2pi_le hp⟩, fun d depth depthDiv sr => rfl,
    fun d depthDiv sr => excursionDepth_posZero d sr, fun d p hp => ?_, fun d ed hed => ?_⟩
  · exact ⟨lfoOffset_posZero d (Fp.mag_cos2pi_le hp), lfoOffset_posZero d (Fp.mag_sin2pi_le hp)⟩
  · rw [Fp.cos2pi_zero, Fp.sin2pi_zero]
    exact ⟨lfoOffset_one d ed, lfoOffset_sin_zero d hed⟩

end Sys2Proof.Machine

/-! PROOFS. The state (10_state.md): what one step can do to the mode, the engine, `BUF` and the configuration, the
invariants that every step keeps (R22, R23, R29, R36), what `INIT` builds (R35), and the frame's two words (R64). -/

namespace Sys2Proof.Machine

/-! ### What one step can do -/

/-- The configuration, `BUF` and the number of frames run are as before. -/
def KeepsRest (s t : State) : Prop := t.cfg = s.cfg ∧ t.buf = s.buf ∧ t.draws = s.draws

/-- The command that the step serves: it is the first event, of an agent that does not wait, and decodes to `i`. -/
def Serves (s : State) (c : Call) (i : Instr) : Prop :=
  (∃ evs, s.pending = .command c :: evs) ∧ s.waits c.agent = false ∧ decode c.word = .ok i

/-- The causes by which a step, but for a frame, writes a parameter or `busy` of the engine `e`: a `SETP` (R142), a
`PROC` that is accepted (R210), or the end of a block with no frame left, which no state of the invariant has in
progress. -/
def ControlWrite (s : State) (e : Engine) (ps : Vector F32 12) (busy : Option Block) : Prop :=
  (busy = e.busy ∧ ∃ c id v, Serves s c (.setp id v) ∧ ps = paramWrite e.params id v) ∨
  (ps = e.params ∧ e.busy = none ∧ ∃ c count base, Serves s c (.proc count base) ∧ count ≠ 0#16 ∧
    rangeOk s.cfg base count = true ∧ busy = some { base := base, count := count, i := 0#16, call := c }) ∨
  (ps = e.params ∧ busy = none ∧ ∃ b, e.busy = some b ∧ b.count.toNat ≤ b.i.toNat)

/-- The mode `m` after a step that runs no frame: as it was (a held state, a host access, a `GETP`, a `PROC` of no
frames, or an error, R233), or as the `RESET` event (R261), an `INIT` that passes `CHECK` (R200) or a write of the
parameters or of `busy` leaves it. -/
def ModeEffect (s : State) (m : Mode) : Prop :=
  m = s.mode ∨ (m = .uninit ∧ ∃ evs, s.pending = .reset :: evs) ∨
  (∃ c sr, m = .ready (construct s.cfg sr) ∧ checkRate s.cfg sr = true ∧ Serves s c (.init sr)) ∨
  ∃ e ps busy, m = .ready { e with params := ps, busy := busy } ∧ s.mode = .ready e ∧ ControlWrite s e ps busy

/-- A frame of the block in progress (R211). -/
def RunsFrame (s t : State) : Prop :=
  ∃ e b evs, t = blockFrame e b { s with pending := evs } ∧ s.mode = .ready e ∧ e.busy = some b

/-- A host write (R74). -/
def HostWrites (s t : State) : Prop :=
  ∃ w v evs, t = { s with pending := evs, buf := bufWrite s.buf w.toNat v } ∧
    s.pending = .hostWrite w v :: evs ∧ s.hasWord w.toNat = true

/-- What the datapath's turn can do, whatever is left pending. -/
theorem runFrame_effect {s t : State} {evs : List Event} (h : runFrame { s with pending := evs } = .next t) :
    (KeepsRest s t ∧ ModeEffect s t.mode) ∨ RunsFrame s t := by
  rcases runFrame_cases { s with pending := evs } with
    ⟨_, eq⟩ | ⟨e, b, hm, hb, ⟨hd, eq⟩ | ⟨_, _, eq⟩ | ⟨_, _, eq⟩⟩ <;> cases eq.symm.trans h
  · exact .inl ⟨⟨rfl, rfl, rfl⟩, .inl rfl⟩
  · exact .inl ⟨⟨rfl, rfl, rfl⟩, .inr (.inr (.inr ⟨e, _, _, rfl, hm, .inr (.inr ⟨rfl, rfl, b, hb, hd⟩)⟩))⟩
  · exact .inr ⟨e, b, evs, rfl, hm, hb⟩

/-- What serving the command of an agent that does not wait can do. -/
theorem serve_effect {s t : State} {c : Call} {evs : List Event} (hp : s.pending = .command c :: evs)
    (hwait : s.waits c.agent = false) (h : serve c { s with pending := evs } = .next t) :
    KeepsRest s t ∧ ModeEffect s t.mode := by
  have hkeep : ∀ {st : Status} {data : BitVec 32}, t = respond st data { s with pending := evs, port := c } →
      KeepsRest s t ∧ ModeEffect s t.mode := by
    rintro _ _ rfl
    exact ⟨⟨rfl, rfl, rfl⟩, .inl rfl⟩
  have hnext : ∀ {o : Host.Outcome State Fault Refusal} {u}, o = .next t → o = .next u → t = u :=
    fun ht hu => Host.Outcome.next.inj (ht.symm.trans hu)
  unfold serve serveWord at h
  split at h
  case h_2 => exact hkeep (hnext h rfl)
  case h_1 i hdec =>
    have hserves : Serves s c i := ⟨⟨evs, hp⟩, hwait, hdec⟩
    cases i with
    | init sr =>
      rcases execInit_cases sr { s with pending := evs, port := c } with ⟨_, eq⟩ | ⟨_, _, eq⟩ | ⟨_, hr, eq⟩
      · exact hkeep (hnext h eq)
      · exact hkeep (hnext h eq)
      · rw [hnext h eq]
        exact ⟨⟨rfl, rfl, rfl⟩, .inr (.inr (.inl ⟨c, sr, rfl, hr, hserves⟩))⟩
    | setp id v =>
      rcases execSetp_cases id v { s with pending := evs, port := c } with ⟨_, eq⟩ | ⟨e, hm, ⟨_, eq⟩ | ⟨_, eq⟩⟩
      · exact hkeep (hnext h eq)
      · exact hkeep (hnext h eq)
      · rw [hnext h eq]
        exact ⟨⟨rfl, rfl, rfl⟩, .inr (.inr (.inr ⟨e, _, _, rfl, hm, .inl ⟨rfl, c, id, v, hserves, rfl⟩⟩))⟩
    | getp id =>
      rcases execGetp_cases id { s with pending := evs, port := c } with ⟨_, eq⟩ | ⟨_, _, ⟨_, eq⟩ | ⟨_, eq⟩⟩ <;>
        exact hkeep (hnext h eq)
    | proc count base =>
      rcases execProc_cases count base { s with pending := evs, port := c } with
        ⟨_, eq⟩ | ⟨e, hm, ⟨_, eq⟩ | ⟨_, _, eq⟩ | ⟨_, _, _, eq⟩ | ⟨hi, hc, hr, eq⟩⟩
      · exact hkeep (hnext h eq)
      · exact hkeep (hnext h eq)
      · exact hkeep (hnext h eq)
      · cases eq.symm.trans h
      · rw [hnext h eq]
        exact ⟨⟨rfl, rfl, rfl⟩, .inr (.inr (.inr ⟨e, _, _, rfl, hm,
          .inr (.inl ⟨rfl, hi, c, count, base, hserves, hc, hr, rfl⟩)⟩))⟩

/-- Everything that a step can do to the mode, the engine, `BUF`, the configuration and the number of frames run
(R20, R22, R33, R36). -/
theorem step_effect {s t : State} (h : step s = .next t) :
    (KeepsRest s t ∧ ModeEffect s t.mode) ∨ RunsFrame s t ∨ HostWrites s t := by
  have hturn : ∀ {evs}, runFrame { s with pending := evs } = .next t →
      (KeepsRest s t ∧ ModeEffect s t.mode) ∨ RunsFrame s t ∨ HostWrites s t := fun h =>
    (runFrame_effect h).imp_right .inl
  rcases step_cases s with ⟨_, eq⟩ | ⟨ev, evs, hp, ⟨c, rfl, hwait, eq⟩ | ⟨c, rfl, hwait, eq⟩ | ⟨rfl, eq⟩ |
    ⟨w, v, rfl, eq⟩ | ⟨w, rfl, eq⟩ | ⟨rfl, eq⟩⟩ <;> replace h := eq.symm.trans h
  · exact hturn h
  · exact hturn h
  · exact .inl (serve_effect hp hwait h)
  · exact hturn h
  · rcases hostWrite_cases w v { s with pending := evs } with ⟨_, eq⟩ | ⟨_, _, eq⟩ | ⟨hw, _, eq⟩ <;>
      cases eq.symm.trans h
    exact .inr (.inr ⟨w, v, evs, rfl, hp, hw⟩)
  · rcases hostRead_cases w { s with pending := evs } with ⟨_, eq⟩ | ⟨_, _, eq⟩ | ⟨_, _, eq⟩ <;>
      cases eq.symm.trans h
    exact .inl ⟨⟨rfl, rfl, rfl⟩, .inl rfl⟩
  · cases h
    exact .inl ⟨⟨rfl, rfl, rfl⟩, .inr (.inl ⟨rfl, evs, hp⟩)⟩

/-! ### The state after a frame -/

/-- `busy` after a frame of the block `b` (R22, R211). -/
def Block.afterFrame (b : Block) : Option Block :=
  if b.count.toNat ≤ b.i.toNat + 1 then none else some { b with i := b.i + 1#16 }

/-- What has been observed after a frame of the block `b`: the last frame delivers the response (R210). -/
def Block.observedAfter (b : Block) (seen : List Observation) : List Observation :=
  if b.count.toNat ≤ b.i.toNat + 1 then .response b.call (responseWord .ok 0#32) :: seen else seen

theorem afterFrame_eq (e : Engine) (b : Block) (s : State) : afterFrame e b s =
    { s with mode := .ready { e with busy := b.afterFrame }, observed := b.observedAfter s.observed } := by
  unfold afterFrame Block.afterFrame Block.observedAfter
  split <;> rfl

/-- What a frame of the block does with the words it reads from `BUF` (R215). -/
def blockFrameResult (e : Engine) (b : Block) (s : State) : FrameResult :=
  frame (frameDraws s.draws) s.cfg e (bufRead s.buf (leftWord b)) (bufRead s.buf (rightWord b))

/-- The state after a frame of the block, field by field. -/
theorem blockFrame_eq (e : Engine) (b : Block) (s : State) : blockFrame e b s =
    { s with
      mode := .ready { (blockFrameResult e b s).engine with busy := b.afterFrame }
      buf := bufWrite (bufWrite s.buf (leftWord b) (blockFrameResult e b s).out.left) (rightWord b)
        (blockFrameResult e b s).out.right
      observed := b.observedAfter s.observed
      draws := s.draws + 1 } :=
  afterFrame_eq ..

theorem blockFrame_mode (e : Engine) (b : Block) (s : State) :
    (blockFrame e b s).mode = .ready { (blockFrameResult e b s).engine with busy := b.afterFrame } := by
  rw [blockFrame_eq]

/-- A step from `READY` to `READY`: the engine is as it was but for its parameters and `busy`, or has run one frame,
or is new. -/
theorem step_ready_cases {s t : State} {e e' : Engine} (hready : s.mode = .ready e) (h : step s = .next t)
    (hready' : t.mode = .ready e') :
    (t.draws = s.draws ∧ ∃ ps busy, e' = { e with params := ps, busy := busy }) ∨
    (t.draws = s.draws + 1 ∧ ∃ b : Block, e' = { (blockFrameResult e b s).engine with busy := b.afterFrame }) ∨
    ∃ c sr, Serves s c (.init sr) ∧ checkRate s.cfg sr = true ∧ e' = construct s.cfg sr := by
  rcases step_effect h with ⟨⟨_, _, hdraws⟩, hmode⟩ | ⟨e₁, b, _, rfl, hs, _⟩ | ⟨_, _, _, rfl, _⟩
  · rw [hready'] at hmode
    rcases hmode with hmode | ⟨hmode, _⟩ | ⟨c, sr, hmode, hrate, hserves⟩ | ⟨e₁, ps, busy, hmode, hs, _⟩
    · exact .inl ⟨hdraws, e.params, e.busy, Mode.ready.inj (hmode.trans hready)⟩
    · cases hmode
    · exact .inr (.inr ⟨c, sr, hserves, hrate, Mode.ready.inj hmode⟩)
    · obtain rfl : e = e₁ := Mode.ready.inj (hready.symm.trans hs)
      exact .inl ⟨hdraws, ps, busy, Mode.ready.inj hmode⟩
  · obtain rfl : e = e₁ := Mode.ready.inj (hready.symm.trans hs)
    exact .inr (.inl ⟨by rw [blockFrame_eq], b, Mode.ready.inj (hready'.symm.trans (blockFrame_mode ..))⟩)
  · exact .inl ⟨rfl, e.params, e.busy, Mode.ready.inj (hready'.symm.trans hready)⟩

/-! ### The mode and the configuration (R20, R33) -/

/-- Settles O28, by the effects of a step: only `RESET` leaves `READY`, only `INIT` enters it. -/
theorem modeChangesOnlyByResetAndInit : Obligations.ModeChangesOnlyByResetAndInit := by
  unfold Obligations.ModeChangesOnlyByResetAndInit
  intro s t h
  have hdistinct : ∀ {e}, Mode.ready e ≠ .uninit := nofun
  rcases step_effect h with ⟨_, hmode | ⟨hmode, hreset⟩ | ⟨c, sr, hmode, hrate, ⟨evs, hp⟩, _, hdec⟩ |
    ⟨_, _, _, hmode, hs, _⟩⟩ | ⟨_, _, _, rfl, hs, _⟩ | ⟨_, _, _, rfl, _⟩
  · exact ⟨fun ht => .inl (hmode.symm.trans ht), fun hs e he => absurd (he.symm.trans (hmode.trans hs)) hdistinct⟩
  · exact ⟨fun _ => .inr hreset, fun _ e he => absurd (he.symm.trans hmode) hdistinct⟩
  · exact ⟨fun ht => absurd (hmode.symm.trans ht) hdistinct,
      fun _ e he => ⟨c, evs, sr, hp, hdec, hrate, Mode.ready.inj (he.symm.trans hmode)⟩⟩
  · exact ⟨fun ht => absurd (hmode.symm.trans ht) hdistinct, fun hs' => absurd (hs.symm.trans hs') hdistinct⟩
  · exact ⟨fun ht => absurd ((blockFrame_mode ..).symm.trans ht) hdistinct,
      fun hs' => absurd (hs.symm.trans hs') hdistinct⟩
  · exact ⟨.inl, fun hs e he => absurd (he.symm.trans hs) hdistinct⟩

/-- Settles O29, by the effects of a step. -/
theorem configurationNeverChanges : Obligations.ConfigurationNeverChanges := by
  unfold Obligations.ConfigurationNeverChanges
  intro s t h
  rcases step_effect h with ⟨⟨hcfg, hbuf, _⟩, _⟩ | ⟨e, b, _, rfl, hready, hbusy⟩ | ⟨w, v, evs, rfl, hp, _⟩
  · exact ⟨hcfg, .inl hbuf⟩
  · have hrun : s.busy = some b := by rw [state_busy, hready, busy_ready, hbusy]
    exact ⟨by rw [blockFrame_eq], .inr (.inl (hrun ▸ nofun))⟩
  · exact ⟨rfl, .inr (.inr ⟨w, v, evs, hp⟩)⟩

/-! ### What `INIT` builds (R35) -/

section
variable (cfg : Config) (sr : BitVec 32)

@[simp] theorem construct_lines_get (i : Fin 12) :
    (construct cfg sr).lines.get i = dlInit (lineLength (cfg.lineSec.get i) sr) := by
  simp [construct, Vector.get_eq_getElem]

@[simp] theorem construct_tapOff_get (t : Fin 14) :
    (construct cfg sr).tapOff.get t = tapOffset (cfg.tapSec.get t) sr := by
  simp [construct, Vector.get_eq_getElem]

/-- The three tests of `CHECK` (R201). -/
theorem checkRate_iff : checkRate cfg sr = true ↔
    sr ≠ 0#32 ∧ sr.toNat ≤ cfg.maxSampleRate.toNat ∧ ∀ i, 2 ≤ lineLength (cfg.lineSec.get i) sr := by
  simp [checkRate, lengthRejected, Nat.succ_le_iff, and_assoc]
end

/-- Settles O11: the engine is the one that `CONSTRUCT` builds. -/
theorem initBuildsTheEngine : Obligations.InitBuildsTheEngine := by
  unfold Obligations.InitBuildsTheEngine
  intro s sr hidle hsr hmax hlen
  have hrate : checkRate s.cfg sr = true := (checkRate_iff s.cfg sr).2 ⟨hsr, hmax, hlen⟩
  refine ⟨construct s.cfg sr, ?_, rfl, rfl, rfl, fun i => ?_, fun t ht => ?_, rfl, rfl, fun j => rfl, rfl, rfl, rfl, rfl⟩
  · rcases execInit_cases sr s with ⟨hbusy, _⟩ | ⟨_, hfail, _⟩ | ⟨_, _, eq⟩
    · exact absurd hidle hbusy
    · exact absurd hrate (by simp [hfail])
    · exact eq
  · rw [construct_lines_get]
    exact ⟨rfl, Nat.sub_add_cancel ((Nat.le_succ 1).trans (hlen i)), Nat.sub_add_cancel (nextPow2_pos _), rfl,
      fun j => rfl⟩
  · rw [construct_tapOff_get, tapOffset, BitVec.toNat_ofNat, Nat.mod_eq_of_lt ht]

/-! ### The invariant of every reachable state (R22, R23, R36, R129) -/

/-- A line without its samples: the four registers of R23. -/
def Line.registers (l : Line) : Line := { l with buf := [] }

theorem registers_eq_iff {l m : Line} :
    l.registers = m.registers ↔ l.cap = m.cap ∧ l.size = m.size ∧ l.mask = m.mask ∧ l.cur = m.cur := by
  simp [Line.registers]

/-- A write changes no register of any line. -/
@[simp] theorem registers_lineWrite (ls : Vector Line 12) (i j : Fin 12) (v : F32) :
    ((lineWrite ls i v).get j).registers = (ls.get j).registers := by
  by_cases hij : i = j
  · rw [hij, get_lineWrite_same]
    rfl
  · rw [get_lineWrite_ne _ _ _ hij]

theorem registers_diffuser (d : Draws) (fi si lp1 : F32) (ls : Vector Line 12) (i : Fin 12) :
    ((diffuser d fi si lp1 ls).lines.get i).registers = (ls.get i).registers := by
  simp [diffuser, diffuser1, diffuser2, diffuser3, diffuser4]

theorem registers_loopPass (d : Draws) (c : TankCoefficients) (r : LoopLines) (split exc lp : F32)
    (ls : Vector Line 12) (i : Fin 12) :
    ((loopPass d c r split exc lp ls).lines.get i).registers = (ls.get i).registers := by
  simp [loopPass, loopLast, loopThird, loopSecond, loopInject]

/-- A frame advances every line and changes no other register of it (R216). -/
theorem registers_frame (d : Draws) (cfg : Config) (e : Engine) (inL inR : F32) (i : Fin 12) :
    ((frame d cfg e inL inR).engine.lines.get i).registers = (dlAdvance (e.lines.get i)).registers := by
  have hadvance : ∀ l : Line, (dlAdvance l).registers = dlAdvance l.registers := fun _ => rfl
  simp only [frame, frameAdvance_lines, get_advanceLines, frameTank, hadvance, registers_loopPass,
    registers_diffuser, frameInput_lines]

theorem cellsWf_nil {w : Nat} (bound : Nat) : cellsWf bound ([] : List (Nat × BitVec w)) :=
  ⟨List.Pairwise.nil, fun _ h => absurd h List.not_mem_nil, fun _ h => absurd h List.not_mem_nil⟩

/-- The engine that `INIT` builds satisfies the invariant. -/
theorem construct_ok {cfg : Config} {sr : BitVec 32} (h : checkRate cfg sr = true) : (construct cfg sr).Ok cfg where
  rate := h
  line_ok := construct_lines_ok h
  line_size i := by
    rw [construct_lines_get]
    exact Nat.sub_add_cancel ((Nat.le_succ 1).trans (((checkRate_iff cfg sr).1 h).2.2 i))
  tap_off := construct_tapOff_get cfg sr
  pd_len := rfl
  pd_cursor := Nat.pos_of_ne_zero fun h0 => ((checkRate_iff cfg sr).1 h).1 (BitVec.eq_of_toNat_eq h0)
  pd_wf := cellsWf_nil _
  block_ok := nofun

/-- Of the parameters and `busy`, the invariant speaks of the block in progress only. -/
theorem Engine.Ok.setControl {cfg : Config} {e : Engine} (h : e.Ok cfg) (ps : Vector F32 12) {busy : Option Block}
    (hb : ∀ b, busy = some b → b.Ok cfg) : Engine.Ok cfg { e with params := ps, busy := busy } :=
  { h with block_ok := hb }

/-- A frame keeps the invariant of the engine. -/
theorem Engine.Ok.frame {cfg : Config} {e : Engine} (h : e.Ok cfg) (d : Draws) (inL inR : F32) :
    (frame d cfg e inL inR).engine.Ok cfg := by
  have hsize : ∀ i, ((Machine.frame d cfg e inL inR).engine.lines.get i).size = (e.lines.get i).size := fun i =>
    (registers_eq_iff.1 (registers_frame d cfg e inL inR i)).2.1
  constructor
  case line_ok => exact frame_lines_ok h.line_ok d cfg inL inR
  case line_size =>
    intro i
    rw [hsize, frame_sampleRate]
    exact h.line_size i
  case pd_cursor =>
    rw [frame_pdW, frame_pdLen]
    exact Nat.mod_lt _ ((Nat.zero_le _).trans_lt h.pd_cursor)
  case pd_wf =>
    rw [frame_preDelay, frame_pdLen]
    exact ramWrite_wf h.pd_wf h.pd_cursor _
  all_goals
    simp only [frame_sampleRate, frame_tapOff, frame_pdLen, frame_busy]
  · exact h.rate
  · exact h.tap_off
  · exact h.pd_len
  · exact h.block_ok

/-- A block that a `PROC` starts has a frame to run. -/
theorem Block.ok_of_accept {cfg : Config} {base : BitVec 32} {count : BitVec 16} (c : Call) (hc : count ≠ 0#16)
    (hr : rangeOk cfg base count = true) : Block.Ok cfg { base := base, count := count, i := 0#16, call := c } where
  i_lt := Nat.pos_of_ne_zero fun h0 => hc (BitVec.eq_of_toNat_eq h0)
  range := hr

/-- A block that goes on after a frame has a frame left: counting it does not wrap around. -/
theorem Block.Ok.afterFrame {cfg : Config} {b b' : Block} (h : b.Ok cfg) (hb : b.afterFrame = some b') :
    b'.Ok cfg := by
  unfold Block.afterFrame at hb
  split at hb
  case isTrue => cases hb
  case isFalse hmore =>
    cases hb
    exact ⟨(Nat.mod_le _ _).trans_lt (Nat.lt_of_not_le hmore), h.range⟩

/-- The words of a block's next frame exist in `BUF` (R213). -/
theorem Block.Ok.rightWord_lt {cfg : Config} {b : Block} (h : b.Ok cfg) : rightWord b < cfg.bufWords.toNat := by
  have hi := h.i_lt
  have hr : b.base.toNat + 2 * b.count.toNat ≤ cfg.bufWords.toNat := of_decide_eq_true h.range
  unfold rightWord
  omega

/-- A step that leaves `BUF` and gives an engine as it should be keeps the invariant. -/
theorem State.Inv.of_keepsRest {s t : State} (h : s.Inv) (hrest : KeepsRest s t)
    (he : ∀ e, t.mode = .ready e → e.Ok s.cfg) : t.Inv := by
  obtain ⟨hcfg, hbuf, _⟩ := hrest
  exact ⟨by rw [hcfg, hbuf]; exact h.buf_wf, by rw [hcfg]; exact he⟩

/-- A frame of the block in progress keeps the invariant. -/
theorem State.Inv.blockFrame {s : State} {e : Engine} {b : Block} (h : s.Inv) (he : e.Ok s.cfg) (hb : b.Ok s.cfg) :
    (blockFrame e b s).Inv := by
  have hframe : (blockFrameResult e b s).engine.Ok s.cfg := he.frame _ _ _
  rw [blockFrame_eq]
  exact {
    buf_wf := bufWrite_wf (bufWrite_wf h.buf_wf (Nat.lt_of_succ_lt hb.rightWord_lt) _) hb.rightWord_lt _
    engine_ok := fun _ he' => Mode.ready.inj he' ▸ hframe.setControl _ fun _ => hb.afterFrame }

/-- The block that a step sets in progress is as it should be. -/
theorem ControlWrite.block_ok {s : State} {e : Engine} {ps : Vector F32 12} {busy : Option Block}
    (h : ControlWrite s e ps busy) (he : e.Ok s.cfg) : ∀ b, busy = some b → b.Ok s.cfg := by
  rcases h with ⟨rfl, _⟩ | ⟨_, _, c, count, base, _, hcount, hrange, rfl⟩ | ⟨_, rfl, _⟩
  · exact he.block_ok
  · rintro _ ⟨⟩
    exact Block.ok_of_accept c hcount hrange
  · exact nofun

/-- Settles O34, by the effects of a step. -/
theorem stepKeepsTheInvariant : Obligations.StepKeepsTheInvariant := by
  unfold Obligations.StepKeepsTheInvariant
  intro s t hinv h
  rcases step_effect h with ⟨hrest, hmode⟩ | ⟨e, b, evs, rfl, hready, hbusy⟩ | ⟨_, _, _, rfl, _, hword⟩
  · refine hinv.of_keepsRest hrest fun e he => ?_
    rw [he] at hmode
    rcases hmode with hmode | ⟨hmode, _⟩ | ⟨_, _, hmode, hrate, _⟩ | ⟨e₁, ps, _, hmode, hready, hwrite⟩
    · exact hinv.engine_ok e hmode.symm
    · cases hmode
    · exact Mode.ready.inj hmode ▸ construct_ok hrate
    · have hok := hinv.engine_ok e₁ hready
      exact Mode.ready.inj hmode ▸ hok.setControl ps (hwrite.block_ok hok)
  · have hok := hinv.engine_ok e hready
    have hinv' : State.Inv { s with pending := evs } := { hinv with }
    exact hinv'.blockFrame hok (hok.block_ok b hbusy)
  · exact ⟨bufWrite_wf hinv.buf_wf (of_decide_eq_true hword) _, hinv.engine_ok⟩

/-- Settles O33: `BUF` is empty and there is no engine. -/
theorem resetSatisfiesTheInvariant : Obligations.ResetSatisfiesTheInvariant := by
  unfold Obligations.ResetSatisfiesTheInvariant
  exact { buf_wf := cellsWf_nil _, engine_ok := nofun }

/-! ### The cursors (R36, R216) -/

/-- The cursors do not speak of the parameters or of the block in progress. -/
theorem Engine.InStep.setControl {e : Engine} {F : Nat} (h : e.InStep F) (ps : Vector F32 12) (busy : Option Block) :
    Engine.InStep { e with params := ps, busy := busy } F := h

/-- A frame advances every cursor once. -/
theorem Engine.InStep.frame {e : Engine} {F : Nat} (h : e.InStep F) (hok : ∀ i, (e.lines.get i).Ok) (d : Draws)
    (cfg : Config) (inL inR : F32) : (frame d cfg e inL inR).engine.InStep (F + 1) := by
  obtain ⟨hpd, hcur⟩ := h
  refine ⟨by rw [frame_pdW, frame_pdLen, hpd, Nat.mod_add_mod], fun i => ?_⟩
  obtain ⟨hcap, _, _, hadvance⟩ := registers_eq_iff.1 (registers_frame d cfg e inL inR i)
  rw [hcap, hadvance, (hok i).advance_cur, hcur, Nat.mod_add_mod, dlAdvance_cap]

/-- No cursor of a new engine has advanced. -/
theorem construct_inStep (cfg : Config) (sr : BitVec 32) : (construct cfg sr).InStep 0 :=
  ⟨rfl, fun i => by rw [construct_lines_get]; exact (Nat.zero_mod _).symm⟩

/-- Settles O35: a frame advances every cursor, `INIT` builds new ones, and nothing else touches them. -/
theorem stepKeepsCursorsInStep : Obligations.StepKeepsCursorsInStep := by
  unfold Obligations.StepKeepsCursorsInStep
  intro s t e e' F hinv hready hstep h hready'
  rcases step_ready_cases hready h hready' with ⟨hdraws, ps, busy, rfl⟩ | ⟨hdraws, b, rfl⟩ |
    ⟨c, sr, ⟨⟨evs, hp⟩, hwait, hdec⟩, hrate, rfl⟩
  · exact .inl ⟨hdraws, hstep.setControl ps busy⟩
  · have hframe : (blockFrameResult e b s).engine.InStep (F + 1) :=
      hstep.frame (hinv.engine_ok e hready).line_ok ..
    exact .inr (.inl ⟨hdraws, hframe.setControl _ _⟩)
  · exact .inr (.inr ⟨construct_inStep s.cfg sr, c, evs, sr, hp, hwait, hdec, hrate, rfl⟩)

/-! ### The two words of a frame (R22, R64, R73, R215) -/

/-- A command of the agent that waits leaves the turn to the datapath, as nothing pending and the event `frame`
do (R91, R245). -/
theorem step_of_datapathTurn {s : State} {b : Block} {rest : List Event} (hb : s.busy = some b)
    (h : DatapathTurn s b rest) : step s = runFrame { s with pending := rest } := by
  rcases h with ⟨hp, rfl⟩ | hp | ⟨c, more, hp, hag, rfl⟩
  · rw [show { s with pending := [] } = s by rw [← hp], step, hp]
  · rw [step, hp]
    rfl
  · have hwait : s.waits c.agent = true := by simp [State.waits, hb, hag]
    have htake : step s = takeEvent (.command c) more s := by rw [step, hp]
    exact htake.trans (if_pos hwait)

/-- In a state of the invariant, the datapath's turn runs the frame of the block in progress. -/
theorem runFrame_of_inv {s : State} {e : Engine} {b : Block} (hinv : s.Inv) (hready : s.mode = .ready e)
    (hbusy : e.busy = some b) : runFrame s = .next (blockFrame e b s) := by
  have hok := (hinv.engine_ok e hready).block_ok b hbusy
  have hi := hok.i_lt
  have hword : s.hasWord (rightWord b) = true := decide_eq_true hok.rightWord_lt
  simp [runFrame, hready, hbusy, hi, hword]

/-- Two words that follow each other, written one after the other: both are read back, and every byte outside them is
as before. -/
theorem bufWrite_pair {words : Nat} {m : Memory} (h : Memory.wf words m) {w : Nat} (hw : w + 1 < words) (x y : F32) :
    bufRead (bufWrite (bufWrite m w x) (w + 1) y) w = x ∧ bufRead (bufWrite (bufWrite m w x) (w + 1) y) (w + 1) = y ∧
    ∀ a, a < 4 * w ∨ 4 * w + 8 ≤ a → readByte (bufWrite (bufWrite m w x) (w + 1) y) a = readByte m a := by
  have hwf := bufWrite_wf h ((Nat.lt_succ_self w).trans hw) x
  refine ⟨?_, bufRead_bufWrite_same hwf (Nat.mul_le_mul_left 4 hw) y, fun a ha => ?_⟩
  · rw [bufRead_bufWrite_ne _ (Nat.succ_ne_self w).symm,
      bufRead_bufWrite_same h (Nat.mul_le_mul_left 4 (Nat.le_of_lt hw))]
  · rw [readByte_bufWrite_ne _ (by omega), readByte_bufWrite_ne _ (by omega)]

/-- The test of `afterFrame` for a block with a frame left: it was the last one. -/
theorem Block.Ok.last_iff {cfg : Config} {b : Block} (h : b.Ok cfg) :
    b.count.toNat ≤ b.i.toNat + 1 ↔ b.i.toNat + 1 = b.count.toNat :=
  ⟨(Nat.le_antisymm h.i_lt ·), Eq.ge⟩

/-- Settles O58: the step is `blockFrame`, whose two writes are to words that follow each other. -/
theorem frameStepWritesItsTwoWords : Obligations.FrameStepWritesItsTwoWords := by
  unfold Obligations.FrameStepWritesItsTwoWords
  intro s e b rest hinv hready hbusy hturn w r
  have hok := (hinv.engine_ok e hready).block_ok b hbusy
  have hinv' : State.Inv { s with pending := rest } := { hinv with }
  have hstep : step s = .next (blockFrame e b { s with pending := rest }) :=
    (step_of_datapathTurn (by rw [state_busy, hready, busy_ready, hbusy]) hturn).trans
      (runFrame_of_inv hinv' hready hbusy)
  obtain ⟨hleft, hright, hothers⟩ := bufWrite_pair hinv.buf_wf hok.rightWord_lt r.out.left r.out.right
  rw [blockFrame_eq] at hstep
  refine ⟨_, hstep, rfl, rfl, rfl, rfl, ?_, hleft, hright, hothers, ?_⟩
  · simp only [Block.observedAfter, hok.last_iff]
    rfl
  · simp only [Block.afterFrame, hok.last_iff]
    rfl

end Sys2Proof.Machine

/-! PROOFS. The phase accumulator (10_state.md R29, 44_tank.md R184): comparisons by value, the exact operations of
the phase advance, and the interval that every step keeps. -/

namespace Sys2Proof.Machine

namespace Fp

/-! ### Comparisons by value (R15) -/

/-- The order of the comparisons is the order of the exact values. -/
theorem orderKey_le_iff (a b : F32) : orderKey a ≤ orderKey b ↔ units a ≤ units b := by
  have hle := @magUnits_strictMono.le_iff_le
  have hzero : ∀ {m}, magUnits m = 0 ↔ m = 0 := fun {_} => magUnits_strictMono.injective.eq_iff (b := 0)
  have hopposite : ∀ m n : Nat, (m : Int) ≤ -n ↔ m = 0 ∧ n = 0 := by omega
  have hbelow : ∀ m n : Nat, -(m : Int) ≤ n := fun m n =>
    (Int.neg_nonpos_of_nonneg (Int.natCast_nonneg m)).trans (Int.natCast_nonneg n)
  rw [orderKey, units_eq, orderKey, units_eq]
  cases sign a <;> cases sign b <;> simp only [if_true, if_false, Bool.false_eq_true]
  · rw [Nat.cast_le, Nat.cast_le, hle]
  · rw [hopposite, hopposite, hzero, hzero]
  · exact iff_of_true (hbelow _ _) (hbelow _ _)
  · rw [neg_le_neg_iff, neg_le_neg_iff, Nat.cast_le, Nat.cast_le, hle]

theorem ge_iff {a b : F32} : ge a b = true ↔ isNan a = false ∧ isNan b = false ∧ units b ≤ units a := by
  simp [ge, orderKey_le_iff, and_assoc]

theorem lt_iff {a b : F32} : lt a b = true ↔ isNan a = false ∧ isNan b = false ∧ units a < units b := by
  simp only [lt, Bool.and_eq_true, Bool.not_eq_true', decide_eq_true_eq, and_assoc, ← not_le, orderKey_le_iff]

theorem units_one : units one = 2 ^ 149 := rfl

theorem units_posZero : units posZero = 0 := rfl

/-- A value below 1.0 in magnitude is finite. -/
theorem isFinite_of_natAbs_lt {x : F32} (h : (units x).natAbs < 2 ^ 149) : isFinite x = true := by
  rw [units_natAbs, ← magUnits_one, magUnits_strictMono.lt_iff_lt] at h
  exact isFinite_iff.2 (h.trans (by decide))

/-- The largest magnitude of a finite value. -/
theorem natAbs_units_le {x : F32} (h : isFinite x = true) : (units x).natAbs ≤ (2 ^ 25 - 2) * 2 ^ 252 := by
  rw [units_natAbs, show (2 ^ 25 - 2) * 2 ^ 252 = magUnits (infMag - 1) from rfl]
  exact magUnits_strictMono.monotone (Nat.le_sub_one_of_lt (isFinite_iff.1 h))

/-! ### Exact results -/

/-- Every significand of at most 24 bits, at any exponent, is the value of some magnitude bits. -/
theorem exists_magUnits_eq (e : Nat) {m : Nat} (hm : m < 2 ^ 24) : ∃ k, magUnits k = m * 2 ^ e := by
  induction e generalizing m with
  | zero => exact ⟨m, by simpa using magUnits_exponent_significand (e := 0) hm (.inl rfl)⟩
  | succ e ih =>
    rcases Nat.lt_or_ge m (2 ^ 23) with hsub | hnorm
    · obtain ⟨k, hk⟩ := ih (m := 2 * m) (by omega)
      exact ⟨k, by rw [hk, pow_succ', mul_comm 2 m, mul_assoc]⟩
    · exact ⟨_, magUnits_exponent_significand hm (.inr hnorm)⟩

/-- The integer part and the fraction of a magnitude are magnitudes, no larger than it. -/
theorem exists_magUnits_floor_fract (k : Nat) :
    (∃ i ≤ k, magUnits i = magUnits k / 2 ^ 149 * 2 ^ 149) ∧ ∃ f ≤ k, magUnits f = magUnits k % 2 ^ 149 := by
  have hle : ∀ {i n}, magUnits i = n → n ≤ magUnits k → i ≤ k ∧ magUnits i = n := fun h hn =>
    ⟨magUnits_strictMono.le_iff_le.1 (h.trans_le hn), h⟩
  suffices h : (∃ i, magUnits i = magUnits k / 2 ^ 149 * 2 ^ 149) ∧ ∃ f, magUnits f = magUnits k % 2 ^ 149 from
    h.imp (.imp fun _ hi => hle hi (Nat.div_mul_le_self _ _)) (.imp fun _ hf => hle hf (Nat.mod_le _ _))
  obtain ⟨e, m, rfl, hm, hn⟩ := exists_exponent_significand k
  rw [magUnits_exponent_significand hm hn]
  rcases Nat.le_total e 149 with he | he
  · rw [show 2 ^ 149 = 2 ^ (149 - e) * 2 ^ e by rw [← pow_add, Nat.sub_add_cancel he],
      Nat.mul_div_mul_right _ _ (Nat.two_pow_pos e), Nat.mul_mod_mul_right, ← pow_add, Nat.sub_add_cancel he]
    exact ⟨exists_magUnits_eq 149 ((Nat.div_le_self _ _).trans_lt hm),
      exists_magUnits_eq e ((Nat.mod_le _ _).trans_lt hm)⟩
  · have hdvd : 2 ^ 149 ∣ m * 2 ^ e := (pow_dvd_pow 2 he).mul_left m
    rw [Nat.div_mul_cancel hdvd, Nat.mod_eq_zero_of_dvd hdvd]
    exact ⟨exists_magUnits_eq e hm, 0, rfl⟩

/-- Packing an exact value gives that value, where its magnitude is that of finite bits. -/
theorem ofUnits_exact {u : Int} {k : Nat} (hk : k < infMag) (hu : u.natAbs = magUnits k) :
    isFinite (ofUnits u) = true ∧ units (ofUnits u) = u := by
  have hround : roundMag u.natAbs 1 = k := by
    rw [hu, ← mul_one (magUnits k)]
    exact roundMag_magUnits_mul one_pos hk.le
  have hk31 : k < 2 ^ 31 := hk.trans (by decide)
  rw [ofUnits_eq, hround, isFinite_iff, mag_pack hk31, units_eq_signed, sign_pack hk31, mag_pack hk31, ← hu,
    signed_natAbs]
  exact ⟨hk, rfl⟩

/-- A sum of finite values that is some finite value is exact; of a zero, `fadd` chooses the sign. -/
theorem fadd_units_exact (q : NanBits) {a b : F32} (ha : isFinite a = true) (hb : isFinite b = true) {k : Nat}
    (hk : k < infMag) (hu : (units a + units b).natAbs = magUnits k) :
    isFinite (fadd q a b) = true ∧ units (fadd q a b) = units a + units b := by
  rw [fadd_finite q ha hb]
  split
  · rename_i hzero
    rw [hzero]
    cases sign a && sign b <;> decide
  · exact ofUnits_exact hk hu

/-- A value less its integer part is its fraction, exactly (R184), from 0 on. -/
theorem fsub_floor_exact (q : NanBits) {x : F32} (hx : isFinite x = true) (h0 : 0 ≤ units x) :
    isFinite (fsub q x (u2fSigned (floor x))) = true ∧
    units (fsub q x (u2fSigned (floor x))) = units x % 2 ^ 149 := by
  have hunits : units x = magUnits (mag x) := by rw [← units_natAbs, Int.natAbs_of_nonneg h0]
  obtain ⟨⟨i, hik, hi⟩, f, hfk, hf⟩ := exists_magUnits_floor_fract (mag x)
  have hint : units x / 2 ^ 149 * 2 ^ 149 = magUnits i := by
    rw [hunits, hi]
    norm_cast
  have hfract : units x % 2 ^ 149 = magUnits f := by
    rw [hunits, hf]
    norm_cast
  obtain ⟨hfin, hfloor⟩ : isFinite (u2fSigned (floor x)) = true ∧
      units (u2fSigned (floor x)) = units x / 2 ^ 149 * 2 ^ 149 :=
    ofUnits_exact (hik.trans_lt (isFinite_iff.1 hx)) (by rw [floor, hint, Int.natAbs_natCast])
  have hdiff : units x + units (fneg (u2fSigned (floor x))) = units x % 2 ^ 149 := by
    rw [fneg_units, hfloor, ← sub_eq_add_neg, Int.emod_def, mul_comm]
  have hexact := fadd_units_exact q hx ((isFinite_fneg _).trans hfin) (hfk.trans_lt (isFinite_iff.1 hx))
    (by rw [hdiff, hfract, Int.natAbs_natCast])
  rwa [hdiff] at hexact

/-- A sum of finite values that are not negative is not negative, and finite where one of them is below 1.0. -/
theorem fadd_nonneg (q : NanBits) {a b : F32} (ha : isFinite a = true) (hb : isFinite b = true)
    (ha0 : 0 ≤ units a) (ha1 : units a < 2 ^ 149) (hb0 : 0 ≤ units b) :
    isFinite (fadd q a b) = true ∧ 0 ≤ units (fadd q a b) := by
  have hbmax := natAbs_units_le hb
  have hsum : (units a + units b).natAbs < (2 ^ 25 - 1) * 2 ^ 252 * 1 := by omega
  rw [fadd_finite q ha hb]
  split
  · cases sign a && sign b <;> decide
  · rw [ofUnits_eq, decide_eq_false (add_nonneg ha0 hb0).not_gt, units_eq (pack _ _), sign_pack (roundMag_lt _ _)]
    exact ⟨isFinite_pack_roundMag one_pos hsum, Int.natCast_nonneg _⟩

/-- An integer other than 0 does not convert to a zero. -/
theorem isZero_u2f {n : BitVec 32} (h : n ≠ 0#32) : isZero (u2f n.toNat) = false := by
  obtain ⟨K, hmin, hnear⟩ := exists_isNearest (n.toNat * 2 ^ 149) one_pos
  have hn : 0 < n.toNat := Nat.pos_of_ne_zero fun h0 => h (BitVec.eq_of_toNat_eq h0)
  have hK : K ≠ 0 := by
    rintro rfl
    have hle := (hnear.2 1 one_pos).1
    rw [magUnits_zero, show magUnits 1 = 1 from rfl] at hle
    omega
  rw [u2f, isZero, mag_pack (roundMag_lt _ _), hmin, decide_eq_false_iff_not]
  exact (lt_min (Nat.pos_of_ne_zero hK) (by decide)).ne'

end Fp

/-- The interval of the phase, by the exact value (R29). -/
theorem inUnit_iff {x : F32} : inUnit x ↔ Fp.isFinite x = true ∧ 0 ≤ Fp.units x ∧ Fp.units x < 2 ^ 149 := by
  rw [inUnit, Fp.ge_iff, Fp.lt_iff, Fp.units_one, Fp.units_posZero]
  constructor
  · rintro ⟨⟨_, _, h0⟩, _, _, h1⟩
    exact ⟨Fp.isFinite_of_natAbs_lt (by omega), h0, h1⟩
  · rintro ⟨hfin, h0, h1⟩
    have hnan := Fp.isNan_eq_false_of_isFinite hfin
    exact ⟨⟨hnan, by decide, h0⟩, hnan, by decide, h1⟩

theorem inUnit_posZero : inUnit Fp.posZero := by
  unfold inUnit
  decide

/-! ### The phase advance (R184) -/

/-- The sum of the phase and `excursion_rate / SR`, before its integer part is taken off. -/
def phaseSum (d : Draws) (phase rate : F32) (sr : BitVec 32) : F32 :=
  Fp.fadd (d.nan 1) phase (Fp.fdiv (d.nan 0) rate (Fp.u2f sr.toNat))

/-- A finite sum below 1.0 is the new phase; another one loses its integer part, exactly. -/
theorem phaseAdvance_of_isFinite {d : Draws} {phase rate : F32} {sr : BitVec 32}
    (h : Fp.isFinite (phaseSum d phase rate sr) = true) :
    Fp.isFinite (phaseAdvance d phase rate sr) = true ∧
    Fp.units (phaseAdvance d phase rate sr) =
      if Fp.units (phaseSum d phase rate sr) < 2 ^ 149 then Fp.units (phaseSum d phase rate sr)
      else Fp.units (phaseSum d phase rate sr) % 2 ^ 149 := by
  have hdef : phaseAdvance d phase rate sr =
      if Fp.ge (phaseSum d phase rate sr) Fp.one then
        if Fp.isInf (phaseSum d phase rate sr) then Fp.quietNan (d.nan 3)
        else Fp.fsub (d.nan 2) (phaseSum d phase rate sr) (Fp.u2fSigned (Fp.floor (phaseSum d phase rate sr)))
      else phaseSum d phase rate sr := rfl
  have hge : Fp.ge (phaseSum d phase rate sr) Fp.one = true ↔ ¬ Fp.units (phaseSum d phase rate sr) < 2 ^ 149 := by
    rw [Fp.ge_iff, Fp.units_one, not_lt]
    exact ⟨fun h => h.2.2, fun h1 => ⟨Fp.isNan_eq_false_of_isFinite h, by decide, h1⟩⟩
  rw [hdef]
  generalize phaseSum d phase rate sr = ph at *
  by_cases hlt : Fp.units ph < 2 ^ 149
  · rw [if_neg (fun h1 => hge.1 h1 hlt), if_pos hlt]
    exact ⟨h, rfl⟩
  · rw [if_pos (hge.2 hlt), Fp.isInf_eq_false_of_isFinite h, if_neg Bool.false_ne_true, if_neg hlt]
    exact Fp.fsub_floor_exact _ h (by omega)

/-- The phase advance keeps the interval while `excursion_rate / SR` is finite and not negative (R29). -/
theorem phaseAdvance_inUnit {d : Draws} {phase rate : F32} {sr : BitVec 32} (h : inUnit phase)
    (hfin : Fp.isFinite (Fp.fdiv (d.nan 0) rate (Fp.u2f sr.toNat)) = true)
    (hge : Fp.ge (Fp.fdiv (d.nan 0) rate (Fp.u2f sr.toNat)) Fp.posZero = true) :
    inUnit (phaseAdvance d phase rate sr) := by
  obtain ⟨hp, h0, h1⟩ := inUnit_iff.1 h
  obtain ⟨_, _, hinc⟩ := Fp.ge_iff.1 hge
  obtain ⟨hsum, hsum0⟩ : Fp.isFinite (phaseSum d phase rate sr) = true ∧ 0 ≤ Fp.units (phaseSum d phase rate sr) :=
    Fp.fadd_nonneg _ hp hfin h0 h1 hinc
  obtain ⟨hfin', hunits⟩ := phaseAdvance_of_isFinite hsum
  refine inUnit_iff.2 ⟨hfin', ?_⟩
  rw [hunits]
  split <;> omega

/-- A rate of a zero of either sign freezes the phase. -/
theorem phaseAdvance_of_isZero (d : Draws) {phase rate : F32} {sr : BitVec 32} (hsr : sr ≠ 0#32) (h : inUnit phase)
    (hz : Fp.isZero rate = true) : Fp.units (phaseAdvance d phase rate sr) = Fp.units phase := by
  obtain ⟨hp, h0, h1⟩ := inUnit_iff.1 h
  have hinc : Fp.isZero (Fp.fdiv (d.nan 0) rate (Fp.u2f sr.toNat)) = true := by
    rw [Fp.fdiv_isZero _ hz (Fp.u2f_isFinite_sign sr).1 (Fp.isZero_u2f hsr)]
    exact (Fp.zeroOf_pack _).1
  have hinc0 : Fp.units (Fp.fdiv (d.nan 0) rate (Fp.u2f sr.toNat)) = 0 := by
    rw [← Int.natAbs_eq_zero, Fp.units_natAbs, Fp.magUnits_mag_of_isZero hinc]
  obtain ⟨hsum, hsumU⟩ : Fp.isFinite (phaseSum d phase rate sr) = true ∧
      Fp.units (phaseSum d phase rate sr) = Fp.units phase := by
    have hexact := Fp.fadd_units_exact (d.nan 1) hp (Fp.isFinite_of_isZero hinc) (Fp.isFinite_iff.1 hp)
      (by rw [hinc0, add_zero, Fp.units_natAbs])
    rwa [hinc0, add_zero] at hexact
  rw [(phaseAdvance_of_isFinite hsum).2, hsumU, if_pos h1]

theorem frame_phase (d : Draws) (cfg : Config) (e : Engine) (inL inR : F32) :
    (frame d cfg e inL inR).engine.phase = phaseAdvance (d.shift 450) e.phase (e.params.get 8) e.sampleRate := by
  simp only [frame, frameAdvance_phase, frameTank_phase, frameTank_sampleRate, frameInput_phase,
    frameInput_sampleRate]
  rfl

/-- A frame of a block keeps the interval. -/
theorem blockFrameResult_inUnit {e : Engine} (b : Block) (s : State) (h : inUnit e.phase) (hrate : e.RateInDomain) :
    inUnit (blockFrameResult e b s).engine.phase := by
  rw [blockFrameResult, frame_phase]
  obtain ⟨hfin, hge⟩ := hrate (((frameDraws s.draws).shift 450).nan 0)
  exact phaseAdvance_inUnit h hfin hge

/-- Settles O52: a frame advances the phase, `INIT` sets it to `+0.0`, and nothing else touches it. -/
theorem phaseStaysInUnitInterval : Obligations.PhaseStaysInUnitInterval := by
  unfold Obligations.PhaseStaysInUnitInterval
  refine ⟨fun s t e e' hready hphase hrate h hready' => ?_, fun d phase rate sr hsr hphase =>
    ⟨phaseAdvance_inUnit hphase, phaseAdvance_of_isZero d hsr hphase⟩, fun d phase rate sr => phaseAdvance_of_isFinite⟩
  rcases step_ready_cases hready h hready' with ⟨_, _, _, rfl⟩ | ⟨_, b, rfl⟩ | ⟨_, _, _, _, rfl⟩
  · exact hphase
  · exact (blockFrameResult_inUnit b s hphase hrate :)
  · exact inUnit_posZero

end Sys2Proof.Machine

/-! PROOFS. Memory (20_memory.md): the bytes of `BUF` under host accesses (R63, R65, R74) and under blocks (R73, R74),
and what the reads of a delay line return (R69 to R72). -/

namespace Sys2Proof.Machine

/-! ### What a run takes -/

theorem run_one {s t : State} (h : step s = .next t) : run 1 s = .next t := (run_succ 0 s t).2 ⟨t, h, rfl⟩

theorem taken_eq {s t : State} {evs : List Event} (h : s.pending = evs ++ t.pending) : taken s t = evs := by
  rw [taken, h, List.length_append, Nat.add_sub_cancel, List.take_left]

theorem taken_append {s m t : State} {j k : Nat} (hj : run j s = .next m) (hk : run k m = .next t) :
    taken s t = taken s m ++ taken m t :=
  taken_eq (by rw [List.append_assoc, ← (run_taken hk).1, ← (run_taken hj).1])

/-- What every step keeps that takes only events in `Q`, every run keeps that takes only events in `Q`. -/
theorem run_keeps {Q : Event → Prop} {R : State → Prop}
    (hstep : ∀ {s t}, R s → step s = .next t → (∀ ev ∈ taken s t, Q ev) → R t) {k : Nat} :
    ∀ {s t}, R s → run k s = .next t → (∀ ev ∈ taken s t, Q ev) → R t := by
  induction k with
  | zero =>
    rintro s _ hs ⟨⟩ _
    exact hs
  | succ k ih =>
    intro s t hs h hevs
    obtain ⟨m, hm, hk⟩ := (run_succ k s t).1 h
    rw [taken_append (run_one hm) hk, List.forall_mem_append] at hevs
    exact ih (hstep hs hm hevs.1) hk hevs.2

/-- The command of an agent that does not wait is served. -/
theorem step_of_command {s : State} {c : Call} {evs : List Event} (hp : s.pending = .command c :: evs)
    (hwait : s.waits c.agent = false) : step s = serve c { s with pending := evs } := by
  simp [step, hp, takeEvent, hwait]

/-! ### Blocks and the bytes of `BUF` (R74, R261) -/

/-- The byte at `a` is not in the range of the block in progress, if there is one. -/
def State.BlockLeaves (s : State) (a : Nat) : Prop := ∀ b, s.busy = some b → OutsideBlock a b.base b.count

theorem State.blockLeaves_of_idle {s : State} {a : Nat} (h : s.busy = none) : s.BlockLeaves a :=
  fun _ hb => absurd (h.symm.trans hb) (Option.some_ne_none _).symm

/-- A block in progress after a step that runs no frame was in progress before it, or is that of a `PROC` that the step
serves. -/
theorem ModeEffect.busy_cases {s : State} {m : Mode} (h : ModeEffect s m) {b : Block} (hb : m.busy = some b) :
    s.busy = some b ∨ ∃ c, Serves s c (.proc b.count b.base) := by
  rcases h with rfl | ⟨rfl, _⟩ | ⟨_, _, rfl, _⟩ | ⟨e, ps, busy, rfl, hready, hwrite⟩
  · exact .inl hb
  · cases hb
  · cases hb
  · obtain rfl : busy = some b := hb
    rcases hwrite with ⟨hbusy, _⟩ | ⟨_, _, c, _, _, hserves, _, _, hnew⟩ | ⟨_, hnone, _⟩
    · exact .inl (by rw [state_busy, hready, busy_ready, hbusy])
    · cases hnew
      exact .inr ⟨c, hserves⟩
    · cases hnone

/-- The range of a block does not move while its frames run (R22). -/
theorem Block.afterFrame_range {b b' : Block} (h : b.afterFrame = some b') : b'.base = b.base ∧ b'.count = b.count := by
  unfold Block.afterFrame at h
  split at h <;> cases h
  exact ⟨rfl, rfl⟩

/-- A byte outside the range of a block is outside each word of the range. -/
theorem OutsideBlock.outside_word {a : Nat} {base : BitVec 32} {count : BitVec 16} (h : OutsideBlock a base count)
    {w : Nat} (hlo : base.toNat ≤ w) (hhi : w < base.toNat + 2 * count.toNat) : a < 4 * w ∨ 4 * w + 4 ≤ a :=
  h.imp (·.trans_le (Nat.mul_le_mul_left 4 hlo)) (Nat.mul_le_mul_left 4 (Nat.succ_le_of_lt hhi)).trans

/-- A frame of a block with a frame left writes inside the block's range (R73, R74). -/
theorem readByte_blockFrame {b : Block} (hi : b.i.toNat < b.count.toNat) {a : Nat} (h : OutsideBlock a b.base b.count)
    (e : Engine) (s : State) : readByte (blockFrame e b s).buf a = readByte s.buf a := by
  have hlast : 2 * b.i.toNat + 1 < 2 * b.count.toNat :=
    (Nat.lt_succ_self _).trans_le (Nat.mul_le_mul_left 2 (Nat.succ_le_of_lt hi))
  have hleft := h.outside_word (w := leftWord b) (Nat.le_add_right ..)
    (Nat.add_lt_add_left (Nat.lt_of_succ_lt hlast) _)
  have hright := h.outside_word (w := rightWord b) (Nat.le_succ_of_le (Nat.le_add_right ..))
    (Nat.add_lt_add_left hlast _)
  rw [blockFrame_eq, readByte_bufWrite_ne _ hright, readByte_bufWrite_ne _ hleft]

/-- The datapath's turn changes no byte outside the block in progress, and starts no other block. -/
theorem runFrame_keeps_byte {s t : State} {a : Nat} (hs : s.BlockLeaves a) (h : runFrame s = .next t) :
    t.BlockLeaves a ∧ readByte t.buf a = readByte s.buf a := by
  rcases runFrame_cases s with ⟨_, eq⟩ | ⟨e, b, hready, hbusy, ⟨_, eq⟩ | ⟨hi, _, eq⟩ | ⟨_, _, eq⟩⟩ <;>
    cases eq.symm.trans h
  · exact ⟨hs, rfl⟩
  · exact ⟨State.blockLeaves_of_idle rfl, rfl⟩
  · have hb : OutsideBlock a b.base b.count := hs b (by rw [state_busy, hready, busy_ready, hbusy])
    refine ⟨fun b' hb' => ?_, readByte_blockFrame hi hb e s⟩
    rw [state_busy, blockFrame_mode] at hb'
    obtain ⟨hbase, hcount⟩ := Block.afterFrame_range hb'
    rwa [hbase, hcount]

/-- A command that leaves the byte alone, once served, has changed no byte and has started no block that holds it. -/
theorem serve_keeps_byte {s t : State} {c : Call} {evs : List Event} {a : Nat} (hs : s.BlockLeaves a)
    (hp : s.pending = .command c :: evs) (hwait : s.waits c.agent = false) (hc : LeavesByte a (.command c))
    (h : serve c { s with pending := evs } = .next t) : t.BlockLeaves a ∧ readByte t.buf a = readByte s.buf a := by
  obtain ⟨⟨_, hbuf, _⟩, hmode⟩ := serve_effect hp hwait h
  refine ⟨fun b hb => ?_, by rw [hbuf]⟩
  rcases hmode.busy_cases hb with hbusy | ⟨c', ⟨_, hp'⟩, _, hdec⟩
  · exact hs b hbusy
  · cases hp.symm.trans hp'
    exact hc.2 c rfl _ _ hdec

/-- A step that takes only events with no business at the byte keeps it, and keeps every block away from it. -/
theorem step_keeps_byte {s t : State} {a : Nat} (hs : s.BlockLeaves a) (h : step s = .next t)
    (hevs : ∀ ev ∈ taken s t, LeavesByte a ev) : t.BlockLeaves a ∧ readByte t.buf a = readByte s.buf a := by
  have htakes : ∀ {ev evs}, s.pending = ev :: evs → t.pending = evs → LeavesByte a ev := fun {ev evs} hp ht =>
    hevs _ (by rw [taken_eq (evs := [ev]) (by rw [hp, ht]; rfl)]; exact List.mem_singleton_self ev)
  rcases step_cases s with ⟨_, eq⟩ | ⟨ev, evs, hp, ⟨c, rfl, _, eq⟩ | ⟨c, rfl, hwait, eq⟩ | ⟨rfl, eq⟩ |
    ⟨w, v, rfl, eq⟩ | ⟨w, rfl, eq⟩ | ⟨rfl, eq⟩⟩ <;> replace h := eq.symm.trans h
  · exact runFrame_keeps_byte hs h
  · exact runFrame_keeps_byte hs h
  · exact serve_keeps_byte hs hp hwait (htakes hp (serve_pending h)) h
  · exact runFrame_keeps_byte (s := { s with pending := evs }) hs h
  · rcases hostWrite_cases w v { s with pending := evs } with ⟨_, eq⟩ | ⟨_, _, eq⟩ | ⟨_, _, eq⟩ <;>
      cases eq.symm.trans h
    exact ⟨hs, readByte_bufWrite_ne _ ((htakes hp rfl).1 w v rfl) v⟩
  · rcases hostRead_cases w { s with pending := evs } with ⟨_, eq⟩ | ⟨_, _, eq⟩ | ⟨_, _, eq⟩ <;>
      cases eq.symm.trans h
    exact ⟨hs, rfl⟩
  · cases h
    exact ⟨State.blockLeaves_of_idle rfl, rfl⟩

/-- Settles O59, by induction on the steps: what a step keeps is the byte together with its distance from the block in
progress. -/
theorem blockStaysInItsRange : Obligations.BlockStaysInItsRange := by
  unfold Obligations.BlockStaysInItsRange
  intro s t k a hs h hevs
  have hkeeps := run_keeps (R := fun u => u.BlockLeaves a ∧ readByte u.buf a = readByte s.buf a)
    (fun ⟨hu, hbyte⟩ hstep hevs => (step_keeps_byte hu hstep hevs).imp_right (·.trans hbyte)) ⟨hs, rfl⟩ h hevs
  exact hkeeps.2

/-! ### A `SETP` between two frames (R73, R214, R264) -/

theorem get_paramWrite (ps : Vector F32 12) (id : BitVec 8) (v : F32) (k : Fin 12) :
    (paramWrite ps id v).get k = if k.val = id.toNat then v else ps.get k := by
  unfold paramWrite
  split
  · simp [Vector.get_eq_getElem, Vector.getElem_set, eq_comm]
  · rw [if_neg (by omega)]

/-- A `SETP` of a known id in `READY` (R142). -/
theorem execSetp_ready {s : State} {e : Engine} (hready : s.mode = .ready e) {id : BitVec 8} (hid : id.toNat ≤ 11)
    (v : F32) : execSetp id v s =
      .next (respond .ok 0#32 { s with mode := .ready { e with params := paramWrite e.params id v } }) := by
  have hknown : unknownId id = false := decide_eq_false (by omega)
  simp [execSetp, hready, hknown]

/-- The datapath's turn while a block has a frame left in `BUF`. -/
theorem runFrame_of_busy {s : State} {e : Engine} {b : Block} (hready : s.mode = .ready e) (hbusy : e.busy = some b)
    (hi : b.i.toNat < b.count.toNat) (hword : s.hasWord (rightWord b) = true) :
    runFrame s = .next (blockFrame e b s) := by
  simp [runFrame, hready, hbusy, hi, hword]

/-- Settles O25: nothing is pending behind the `SETP`, so the datapath has the second step. -/
theorem setpIsSeenByTheNextFrame : Obligations.SetpIsSeenByTheNextFrame := by
  unfold Obligations.SetpIsSeenByTheNextFrame
  intro s e b c id v hready hbusy hi hword hagent hdec hid hp
  have hwait : s.waits c.agent = false := by
    simp [State.waits, state_busy, hready, hbusy, hagent.symm]
  have hserve : step s = .next (respond .ok 0#32 { s with
      mode := .ready { e with params := paramWrite e.params id v }, pending := [], port := c }) := by
    rw [step_of_command hp hwait, serve, serveWord, hdec]
    exact (execSetp_ready (s := { s with pending := [], port := c }) hready hid v :)
  refine ⟨paramWrite e.params id v, get_paramWrite e.params id v, run_one hserve, ?_⟩
  refine (run_succ 1 s _).2 ⟨_, hserve, run_one ((step_of_datapathTurn (b := b) ?_ (.inl ⟨?_, rfl⟩)).trans ?_)⟩
  · exact hbusy
  · rfl
  · exact runFrame_of_busy rfl hbusy hi hword

/-! ### Host accesses (R63, R65, R67, R74) -/

/-- Byte `k` of a word stands at byte address `4w + k` (R65). -/
theorem bufRead_byte (m : Memory) (w : Nat) {k : Nat} (hk : k < 4) :
    (bufRead m w).extractLsb' (8 * k) 8 = readByte m (4 * w + k) := by
  unfold bufRead
  interval_cases k
  · exact BitVec.extractLsb'_append_eq_right
  · exact (BitVec.extractLsb'_append_eq_of_le (by decide)).trans BitVec.extractLsb'_append_eq_right
  · exact (BitVec.extractLsb'_append_eq_of_le (by decide)).trans
      ((BitVec.extractLsb'_append_eq_of_le (by decide)).trans BitVec.extractLsb'_append_eq_right)
  · exact (BitVec.extractLsb'_append_eq_of_le (by decide)).trans ((BitVec.extractLsb'_append_eq_of_le (by decide)).trans
      ((BitVec.extractLsb'_append_eq_of_le (by decide)).trans BitVec.extractLsb'_eq_self))

theorem hostWrite_free {s : State} {w : BitVec 32} (hword : s.hasWord w.toNat = true) (howns : s.owns w.toNat = false)
    (v : F32) : hostWrite w v s = .next { s with buf := bufWrite s.buf w.toNat v } := by
  simp [hostWrite, hword, howns]

theorem hostRead_free {s : State} {w : BitVec 32} (hword : s.hasWord w.toNat = true) (howns : s.owns w.toNat = false) :
    hostRead w s = .next { s with observed := .bufWord w (bufRead s.buf w.toNat) :: s.observed } := by
  simp [hostRead, hword, howns]

/-- Settles O27: the four bytes of the word written are those of the word read back. -/
theorem hostAccessesTouchOneWord : Obligations.HostAccessesTouchOneWord := by
  unfold Obligations.HostAccessesTouchOneWord
  intro s rest w hwf hw hfree
  have hword : s.hasWord w.toNat = true := decide_eq_true hw
  have howns : s.owns w.toNat = false := Bool.eq_false_iff.2 (mt (owns_iff s w.toNat).1 hfree)
  refine ⟨fun v hp => ⟨bufWrite s.buf w.toNat v, ?_, ?_⟩, fun k => bufRead_byte s.buf w.toNat, fun hp => ?_⟩
  · rw [step, hp]
    exact hostWrite_free (s := { s with pending := rest }) hword howns v
  · have hread : bufRead (bufWrite s.buf w.toNat v) w.toNat = v :=
      bufRead_bufWrite_same hwf (Nat.mul_le_mul_left 4 hw) v
    refine ⟨hread, fun k hk => ?_, fun a ha => readByte_bufWrite_ne _ ha v⟩
    rw [← bufRead_byte _ _ hk, hread]
  · rw [step, hp]
    exact hostRead_free (s := { s with pending := rest }) hword howns

/-! ### The samples in a RAM that is written in a circle (R61, R62, R70) -/

/-- The RAM of `cap` cells holds the samples of the last `cap` frames, the one of frame `j` in cell `j mod cap`. -/
def HoldsRecent (r : Ram) (cap : Nat) (vs : List F32) : Prop :=
  ∀ j : Int, (vs.length : Int) - (cap : Int) ≤ j → j < (vs.length : Int) →
    ramRead r (j % (cap : Int)).toNat = sampleOf vs j

theorem sampleOf_concat_length (vs : List F32) (v : F32) : sampleOf (vs ++ [v]) vs.length = v := by
  rw [sampleOf, if_neg (Int.natCast_nonneg _).not_gt, Int.toNat_natCast, List.getD_eq_getElem?_getD,
    List.getElem?_concat_length, Option.getD_some]

theorem sampleOf_concat_lt (vs : List F32) (v : F32) {j : Int} (h : j < vs.length) :
    sampleOf (vs ++ [v]) j = sampleOf vs j := by
  unfold sampleOf
  split
  · rfl
  · rw [List.getD_append _ _ _ _ (by omega)]

theorem holdsRecent_nil (cap : Nat) : HoldsRecent [] cap [] :=
  fun _ _ h => (if_pos h).symm

/-- The sample of a frame less than `cap` frames before frame `F` is not in the cell of frame `F`. -/
theorem toNat_emod_ne_mod {cap F : Nat} {j : Int} (hlo : (F : Int) - (cap : Int) < j) (hhi : j < (F : Int)) :
    (j % (cap : Int)).toNat ≠ F % cap := by
  intro heq
  have hdist : (F : Int) - j < (cap : Int) := Int.sub_lt_of_sub_lt hlo
  have hpos : 0 < (F : Int) - j := Int.sub_pos_of_lt hhi
  have hmod : j ≡ F [ZMOD cap] := by
    rw [Int.ModEq, ← Int.natCast_mod, ← heq, Int.toNat_of_nonneg (Int.emod_nonneg _ (hpos.trans hdist).ne')]
  exact hpos.ne' (Int.eq_zero_of_dvd_of_nonneg_of_lt hpos.le hdist hmod.dvd)

/-- The write of frame `F` goes to cell `F mod cap`, over the sample of frame `F − cap`. -/
theorem HoldsRecent.write {r : Ram} {cap : Nat} {vs : List F32} (h : HoldsRecent r cap vs) (hwf : cellsWf cap r)
    (v : F32) : HoldsRecent (ramWrite r (vs.length % cap) v) cap (vs ++ [v]) := by
  intro j hlo hhi
  rw [List.length_append, List.length_singleton, Int.natCast_succ] at hlo hhi
  rcases Int.lt_or_eq_of_le (Int.lt_add_one_iff.1 hhi) with hlt | rfl
  · rw [ramRead_ramWrite_ne _ (toNat_emod_ne_mod (by omega) hlt), sampleOf_concat_lt _ _ hlt]
    exact h j (by omega) hlt
  · rw [← Int.natCast_mod, Int.toNat_natCast, ramRead_ramWrite_same hwf, sampleOf_concat_length]

/-! ### The offsets of a delay line (R69) -/

/-- Settles O40: the cells are the remainders of `cur − k` and `cur − k'`. -/
theorem offsetsWrapAtTheCapacity : Obligations.OffsetsWrapAtTheCapacity := by
  unfold Obligations.OffsetsWrapAtTheCapacity
  intro l k k' h
  rw [← Int.natCast_inj, h.index_eq, h.index_eq, Int.emod_eq_emod_iff_emod_sub_eq_zero,
    ← Int.dvd_iff_emod_eq_zero, sub_sub_sub_cancel_left, ← dvd_neg, neg_sub]

/-- The offsets of the cursor cell. -/
theorem Line.Ok.index_eq_cur_iff {l : Line} (h : l.Ok) (k : Int) : dlIndex l k = l.cur ↔ k % (l.cap : Int) = 0 := by
  have hzero : dlIndex l 0 = l.cur := by
    rw [← Int.natCast_inj, h.index_eq, sub_zero]
    exact Int.emod_eq_of_lt (Int.natCast_nonneg _) (Int.ofNat_lt.2 h.cur_lt)
  rw [← hzero, offsetsWrapAtTheCapacity l k 0 h, sub_zero, Int.dvd_iff_emod_eq_zero]

/-! ### A delay line after `F` frames (R70) -/

theorem lineFrames_concat (l : Line) (vs : List F32) (v : F32) :
    lineFrames l (vs ++ [v]) = dlAdvance (dlWrite (lineFrames l vs) v) := List.foldl_concat ..

/-- The line has run one frame for each sample of `vs` since `INIT`. -/
def Line.HasRun (l : Line) (vs : List F32) : Prop :=
  l.Ok ∧ l.cur = vs.length % l.cap ∧ HoldsRecent l.buf l.cap vs

theorem Line.HasRun.ok {l : Line} {vs : List F32} (h : l.HasRun vs) : l.Ok := h.1

theorem Line.HasRun.frame {l : Line} {vs : List F32} (h : l.HasRun vs) (v : F32) :
    (dlAdvance (dlWrite l v)).HasRun (vs ++ [v]) := by
  obtain ⟨hok, hcur, hrecent⟩ := h
  refine ⟨(hok.write v).advance, ?_, ?_⟩
  · rw [(hok.write v).advance_cur, dlWrite_cur, dlWrite_cap, dlAdvance_cap, dlWrite_cap, hcur, Nat.mod_add_mod,
      List.length_append, List.length_singleton]
  · rw [dlAdvance_buf, dlWrite_buf, hcur]
    exact hrecent.write hok.buf_wf v

theorem hasRun_lineFrames {length : Nat} (hlen : 2 ≤ length) (vs : List F32) :
    (lineFrames (dlInit length) vs).HasRun vs := by
  induction vs using List.reverseRecOn with
  | nil => exact ⟨dlInit_ok (decide_eq_false (by omega)), (Nat.zero_mod _).symm, holdsRecent_nil _⟩
  | append_singleton vs v ih =>
    rw [lineFrames_concat]
    exact ih.frame v

/-- No frame changes the fixed delay. -/
theorem lineFrames_size (l : Line) (vs : List F32) : (lineFrames l vs).size = l.size := by
  induction vs using List.reverseRecOn with
  | nil => rfl
  | append_singleton vs v ih => rw [lineFrames_concat, dlAdvance_size, dlWrite_size, ih]

/-- The offset `k` reads the sample of any of the last `cap` frames that has the remainder of `F − k` (R69). -/
theorem Line.HasRun.readTap_of_emod_eq {l : Line} {vs : List F32} (h : l.HasRun vs) {k j : Int}
    (hcell : ((vs.length : Int) - k) % (l.cap : Int) = j % (l.cap : Int)) (hlo : (vs.length : Int) - l.cap ≤ j)
    (hhi : j < vs.length) : dlReadTap l k = sampleOf vs j := by
  obtain ⟨hok, hcur, hrecent⟩ := h
  have hindex : dlIndex l k = (j % (l.cap : Int)).toNat := by
    rw [← hcell, ← Int.emod_sub_emod, ← Int.natCast_mod, ← hcur, ← hok.index_eq, Int.toNat_natCast]
  rw [dlReadTap, hindex, hrecent j hlo hhi]

/-- A tap read before the frame's write. -/
theorem Line.HasRun.readTap {l : Line} {vs : List F32} (h : l.HasRun vs) (k : Int) :
    dlReadTap l k = sampleOf vs
      ((vs.length : Int) - if k % (l.cap : Int) = 0 then (l.cap : Int) else k % (l.cap : Int)) := by
  have hcap : (0 : Int) < l.cap := Int.natCast_pos.2 h.ok.cap_pos
  have hnonneg := Int.emod_nonneg k hcap.ne'
  have hlt := Int.emod_lt_of_pos k hcap
  split_ifs with hk
  · refine h.readTap_of_emod_eq ?_ (Int.le_refl _) (Int.sub_lt_self _ hcap)
    rw [Int.sub_emod_right, ← Int.sub_emod_emod, hk, Int.sub_zero]
  · exact h.readTap_of_emod_eq (Int.sub_emod_emod ..).symm (Int.sub_le_sub_left hlt.le _)
      (Int.sub_lt_self _ (hnonneg.lt_of_ne' hk))

/-- A tap read after the frame's write: only the cursor cell has changed. -/
theorem Line.HasRun.readTap_write {l : Line} {vs : List F32} (h : l.HasRun vs) (v : F32) (k : Int) :
    dlReadTap (dlWrite l v) k =
      if k % (l.cap : Int) = 0 then v else sampleOf vs ((vs.length : Int) - k % (l.cap : Int)) := by
  simp only [h.ok.readTap_write, h.ok.index_eq_cur_iff, h.readTap]
  split <;> rfl

/-- Settles O41: the line has run `F` frames, so its RAM holds the samples of the last `cap` of them. -/
theorem tapReadMeansDelay : Obligations.TapReadMeansDelay := by
  unfold Obligations.TapReadMeansDelay
  intro length vs v k hlen
  have hrun := hasRun_lineFrames hlen vs
  exact ⟨hrun.readTap k, hrun.readTap_write v k⟩

/-! ### The fixed read (R72, R124) -/

/-- The fixed delay is no multiple of the capacity (R129). -/
theorem Line.Ok.size_emod_cap {l : Line} (h : l.Ok) : (l.size : Int) % (l.cap : Int) = l.size :=
  Int.emod_eq_of_lt (Int.natCast_nonneg _) (Int.ofNat_lt.2 h.size_lt)

theorem Line.Ok.size_index_ne_cur {l : Line} (h : l.Ok) : dlIndex l l.size ≠ l.cur := by
  rw [Ne, h.index_eq_cur_iff, h.size_emod_cap, Int.natCast_eq_zero]
  exact Nat.ne_of_gt h.size_pos

theorem Line.Ok.readFixed_write {l : Line} (h : l.Ok) (v : F32) : dlReadFixed (dlWrite l v) = dlReadFixed l :=
  (h.readTap_write v l.size).trans (if_neg h.size_index_ne_cur)

/-- Settles O42: the fixed delay is a tap offset strictly between 0 and `cap`. -/
theorem fixedReadSeesEarlierFrames : Obligations.FixedReadSeesEarlierFrames := by
  unfold Obligations.FixedReadSeesEarlierFrames
  refine ⟨fun _ => rfl, fun _ _ => rfl, fun l v h => ⟨h.size_index_ne_cur, h.readFixed_write v⟩, ?_⟩
  intro length vs v hlen l earlier
  have hrun : l.HasRun vs := hasRun_lineFrames hlen vs
  have hsize : (l.size : Int) = (length : Int) - 1 := by
    rw [lineFrames_size]
    exact Int.natCast_pred_of_pos (Nat.zero_lt_of_lt hlen)
  have hread : dlReadFixed l = earlier := by
    rw [dlReadFixed, hrun.readTap, hrun.ok.size_emod_cap,
      if_neg (Int.natCast_ne_zero.2 (Nat.ne_of_gt hrun.ok.size_pos)), hsize]
  exact ⟨hread, (hrun.ok.readFixed_write v).trans hread⟩

end Sys2Proof.Machine

/-! PROOFS. The delay line (40_delay_line.md): the geometry that only `INIT` sets (R129), and the interpolated read
(R126 to R128). -/

namespace Sys2Proof.Machine

/-! ### The geometry (R26, R27, R30, R129) -/

/-- A frame leaves the geometry: of a line it changes the samples and the cursor only. -/
theorem frame_geometry (d : Draws) (cfg : Config) (e : Engine) (inL inR : F32) :
    let e' := (frame d cfg e inL inR).engine
    e'.sampleRate = e.sampleRate ∧ e'.pdLen = e.pdLen ∧ e'.tapOff = e.tapOff ∧
    ∀ i, (e'.lines.get i).cap = (e.lines.get i).cap ∧ (e'.lines.get i).size = (e.lines.get i).size ∧
      (e'.lines.get i).mask = (e.lines.get i).mask := by
  refine ⟨frame_sampleRate .., frame_pdLen .., frame_tapOff .., fun i => ?_⟩
  obtain ⟨hcap, hsize, hmask, _⟩ := registers_eq_iff.1 (registers_frame d cfg e inL inR i)
  exact ⟨hcap, hsize, hmask⟩

/-- Settles O30: the three things that a step can do to an engine; the third is an `INIT`. -/
theorem geometryChangesOnlyAtInit : Obligations.GeometryChangesOnlyAtInit := by
  unfold Obligations.GeometryChangesOnlyAtInit
  intro s t e e' hready hnoInit h hready'
  rcases step_ready_cases hready h hready' with ⟨_, _, _, rfl⟩ | ⟨_, b, rfl⟩ |
    ⟨c, sr, ⟨⟨evs, hp⟩, hwait, hdec⟩, _⟩
  · exact ⟨rfl, rfl, rfl, fun _ => ⟨rfl, rfl, rfl⟩⟩
  · exact (frame_geometry (frameDraws s.draws) s.cfg e (bufRead s.buf (leftWord b)) (bufRead s.buf (rightWord b)) :)
  · exact absurd hdec (hnoInit c evs sr hp hwait)

namespace Fp

/-! ### The floor of a value, and its fraction (R126) -/

theorem isZero_iff_units {x : F32} : isZero x = true ↔ units x = 0 := by
  rw [← Int.natAbs_eq_zero, units_natAbs]
  exact isZero_iff.trans (magUnits_strictMono.injective.eq_iff (b := 0)).symm

theorem floor_mul_le (x : F32) : floor x * 2 ^ 149 ≤ units x := Int.ediv_mul_le _ (by decide)

theorem units_lt_floor_succ_mul (x : F32) : units x < (floor x + 1) * 2 ^ 149 :=
  Int.lt_ediv_add_one_mul_self _ (by decide)

theorem units_sub_floor_mul (x : F32) : units x - floor x * 2 ^ 149 = units x % 2 ^ 149 := by
  rw [floor, mul_comm, ← Int.emod_def]

/-- From 2^23 in magnitude on, which is 2^172 units, every value is an integer. -/
theorem two_pow_dvd_magUnits_or_lt (k : Nat) : 2 ^ 149 ∣ magUnits k ∨ magUnits k < 2 ^ 172 := by
  obtain ⟨e, m, rfl, hm, hn⟩ := exists_exponent_significand k
  rw [magUnits_exponent_significand hm hn]
  rcases Nat.lt_or_ge e 149 with he | he
  · have hpow : 2 ^ e ≤ 2 ^ 148 := Nat.pow_le_pow_right two_pos (Nat.le_sub_one_of_lt he)
    exact .inr ((Nat.mul_lt_mul_of_lt_of_le hm hpow (Nat.two_pow_pos 148)).trans_eq (pow_add 2 24 148).symm)
  · exact .inl ((pow_dvd_pow 2 he).mul_left m)

/-- An integer of at most 2^23 is the value of finite magnitude bits. -/
theorem exists_magUnits_eq_integer {n : Nat} (hn : n ≤ 2 ^ 23) : ∃ k < infMag, magUnits k = n * 2 ^ 149 := by
  obtain ⟨k, hk⟩ := exists_magUnits_eq 149 (hn.trans_lt (by decide : 2 ^ 23 < 2 ^ 24))
  have hlt : magUnits k < magUnits infMag := hk.trans_lt ((Nat.mul_le_mul_right _ hn).trans_lt (by decide))
  exact ⟨k, magUnits_strictMono.lt_iff_lt.1 hlt, hk⟩

/-- The floor of a binary32 is a binary32 (R126): either the value is an integer, or it is small. -/
theorem exists_magUnits_eq_floor {x : F32} (hx : isFinite x = true) :
    ∃ k < infMag, (floor x * 2 ^ 149).natAbs = magUnits k := by
  rcases two_pow_dvd_magUnits_or_lt (mag x) with hdvd | hlt
  · rw [← units_natAbs, ← Int.natCast_dvd] at hdvd
    refine ⟨mag x, isFinite_iff.1 hx, ?_⟩
    rw [← units_natAbs]
    exact congrArg Int.natAbs (Int.ediv_mul_cancel hdvd)
  · rw [← units_natAbs] at hlt
    have hle : (floor x).natAbs ≤ 2 ^ 23 := by
      unfold floor
      omega
    obtain ⟨k, hk, heq⟩ := exists_magUnits_eq_integer hle
    exact ⟨k, hk, (Int.natAbs_mul _ _).trans heq.symm⟩

/-- `u2f_signed` of a floor is exact, of a negative one too (R126). -/
theorem u2fSigned_floor_exact {x : F32} (hx : isFinite x = true) :
    isFinite (u2fSigned (floor x)) = true ∧ units (u2fSigned (floor x)) = floor x * 2 ^ 149 := by
  obtain ⟨k, hk, hfloor⟩ := exists_magUnits_eq_floor hx
  exact ofUnits_exact hk hfloor

/-- The difference that `fsub` rounds to the fraction is not negative, and below 1.0. -/
theorem fsub_floor_nearest (q : NanBits) {x : F32} (hx : isFinite x = true) :
    Nearest (fsub q x (u2fSigned (floor x))) (units x % 2 ^ 149) 1 := by
  obtain ⟨hfin, hunits⟩ := u2fSigned_floor_exact hx
  have hnear := fsub_nearest q hx hfin
  rwa [hunits, units_sub_floor_mul] at hnear

/-- What is nearest to a number below the overflow threshold is finite. -/
theorem isFinite_of_nearest {r : F32} {u : Int} (h : Nearest r u 1) (hu : u.natAbs < (2 ^ 25 - 1) * 2 ^ 252) :
    isFinite r = true := by
  obtain ⟨hnan, _, _, hinf, _⟩ := h
  exact isFinite_of_not hnan (Bool.eq_false_iff.2 fun h => (hinf.1 h).not_gt hu)

theorem natAbs_units_sub_le_of_nearest {r x : F32} {u : Int} (h : Nearest r u 1) (hr : isFinite r = true)
    (hx : isFinite x = true) : (units r - u).natAbs ≤ (units x - u).natAbs := by
  obtain ⟨_, _, _, _, hnear⟩ := h
  have hle := (hnear hr x hx).1
  rwa [Nat.cast_one, mul_one, mul_one] at hle

/-- Rounding to nearest does not pass a value from above. -/
theorem le_units_of_nearest {r x : F32} {u : Int} (h : Nearest r u 1) (hr : isFinite r = true)
    (hx : isFinite x = true) (hu : units x ≤ u) : units x ≤ units r := by
  have hle := natAbs_units_sub_le_of_nearest h hr hx
  omega

/-- Rounding to nearest does not pass a value from below. -/
theorem units_le_of_nearest {r x : F32} {u : Int} (h : Nearest r u 1) (hr : isFinite r = true)
    (hx : isFinite x = true) (hu : u ≤ units x) : units r ≤ units x := by
  have hle := natAbs_units_sub_le_of_nearest h hr hx
  omega

/-- The fraction of a finite value lies in [0, 1]; rounding may bring it to 1.0 (R126). -/
theorem fsub_floor_mem_unit (q : NanBits) {x : F32} (hx : isFinite x = true) :
    isFinite (fsub q x (u2fSigned (floor x))) = true ∧ 0 ≤ units (fsub q x (u2fSigned (floor x))) ∧
    units (fsub q x (u2fSigned (floor x))) ≤ 2 ^ 149 := by
  have hnear := fsub_floor_nearest q hx
  have h0 : 0 ≤ units x % 2 ^ 149 := Int.emod_nonneg _ (by decide)
  have h1 : units x % 2 ^ 149 < 2 ^ 149 := Int.emod_lt_of_pos _ (by decide)
  have hfin := isFinite_of_nearest hnear ((Int.natAbs_lt_natAbs_of_nonneg_of_lt h0 h1).trans (by decide))
  exact ⟨hfin, le_units_of_nearest (x := posZero) hnear hfin (by decide) h0,
    units_le_of_nearest (x := one) hnear hfin (by decide) h1.le⟩

/-- The fraction of an integer is a zero. -/
theorem isZero_fsub_floor (q : NanBits) {x : F32} (hx : isFinite x = true) (hint : units x % 2 ^ 149 = 0) :
    isZero (fsub q x (u2fSigned (floor x))) = true := by
  obtain ⟨hfin, hunits⟩ := u2fSigned_floor_exact hx
  refine (zeroOf_fsub q hx hfin ?_).1
  rw [hunits, units_sub_floor_mul, hint]

/-! ### Products with a zero, and sums with one (R128) -/

theorem isFinite_eq_false_of_isNan {x : F32} (h : isNan x = true) : isFinite x = false :=
  decide_eq_false (of_decide_eq_true h : infMag < mag x).not_gt

theorem isZero_fmul (q : NanBits) {a z : F32} (ha : isFinite a = true) (hz : isZero z = true) :
    isZero (fmul q a z) = true := by
  rw [fmul_isZero q ha (isFinite_of_isZero hz) (by rw [hz, Bool.or_true])]
  exact (zeroOf_pack _).1

/-- An infinity or a NaN times a zero is a NaN. -/
theorem isNan_fmul_isZero (q : NanBits) {a z : F32} (ha : isFinite a = false) (hz : isZero z = true) :
    isNan (fmul q a z) = true := by
  rcases class_cases a with ⟨hnan, _⟩ | ⟨hnan, hinf, _⟩ | ⟨_, _, hfin⟩
  · rw [fmul_nan q (by rw [hnan, Bool.true_or]), isNan_quietNan]
  · rw [fmul_inf q hnan (isNan_eq_false_of_isFinite (isFinite_of_isZero hz)) (by rw [hinf, Bool.true_or]),
      hz, Bool.or_true, if_pos rfl, isNan_quietNan]
  · exact absurd (ha.symm.trans hfin) Bool.false_ne_true

/-- A zero added to a finite value leaves the number, and every bit of one that is no zero. -/
theorem fadd_isZero (q : NanBits) {z x : F32} (hz : isZero z = true) (hx : isFinite x = true) :
    isFinite (fadd q z x) = true ∧ units (fadd q z x) = units x ∧ (isZero x = false → fadd q z x = x) := by
  have hfin := isFinite_of_isZero hz
  have hsum : units z + units x = units x := by rw [isZero_iff_units.1 hz, zero_add]
  obtain ⟨hfin', hunits⟩ := fadd_units_exact q hfin hx (isFinite_iff.1 hx) (by rw [hsum, units_natAbs])
  exact ⟨hfin', hunits.trans hsum, fun h0 => fadd_exact q hfin hx hx h0 hsum⟩

/-- A zero added to an infinity or a NaN does not make it finite. -/
theorem isFinite_fadd_isZero (q : NanBits) {z : F32} (hz : isZero z = true) (x : F32) :
    isFinite (fadd q z x) = isFinite x := by
  rcases class_cases x with ⟨hnan, _, hx⟩ | ⟨_, hinf, _⟩ | ⟨_, _, hx⟩
  · rw [fadd_nan q (by rw [hnan, Bool.or_true]), isFinite_eq_false_of_isNan (isNan_quietNan q), hx]
  · rw [fadd_finite_inf q (isFinite_of_isZero hz) hinf]
  · rw [(fadd_isZero q hz hx).1, hx]

theorem isNan_fadd_isNan (q : NanBits) {a : F32} (ha : isNan a = true) (b : F32) : isNan (fadd q a b) = true := by
  rw [fadd_nan q (by rw [ha, Bool.true_or]), isNan_quietNan]

/-- One step of the nesting of R127 at a zero fraction: finite exactly when both coefficients are. -/
theorem isFinite_fadd_fmul_isZero (p q : NanBits) {z : F32} (hz : isZero z = true) (a b : F32) :
    isFinite (fadd p (fmul q a z) b) = (isFinite a && isFinite b) := by
  cases ha : isFinite a
  · exact isFinite_eq_false_of_isNan (isNan_fadd_isNan p (isNan_fmul_isZero q ha hz) b)
  · exact isFinite_fadd_isZero p (isZero_fmul q ha hz) b

end Fp

/-! ### The interpolated read (R126 to R128) -/

open Fp in
/-- The three coefficients of `CUBIC` are finite (R128). -/
def cubicFinite (d : Draws) (x0 x1 x2 x3 : F32) : Bool :=
  isFinite (cubicA d x0 x1 x2 x3) && isFinite (cubicB d x0 x1 x2 x3) && isFinite (cubicC d x0 x2)

open Fp in
/-- `CUBIC` at a zero fraction (R128): the last product is a zero while the coefficients are finite, and a NaN as soon
as one of them is not. -/
theorem cubic_isZero (d : Draws) (x0 x1 x2 x3 : F32) {f : F32} (hf : isZero f = true) :
    (cubicFinite d x0 x1 x2 x3 = true → isFinite x1 = true → isFinite (cubic d x0 x1 x2 x3 f) = true ∧
      units (cubic d x0 x1 x2 x3 f) = units x1 ∧ (isZero x1 = false → cubic d x0 x1 x2 x3 f = x1)) ∧
    (cubicFinite d x0 x1 x2 x3 = false → isNan (cubic d x0 x1 x2 x3 f) = true) := by
  have hquadratic : isFinite (fadd (d.nan 16) (fmul (d.nan 15) (fadd (d.nan 14)
      (fmul (d.nan 13) (cubicA d x0 x1 x2 x3) f) (cubicB d x0 x1 x2 x3)) f) (cubicC d x0 x2)) =
      cubicFinite d x0 x1 x2 x3 := by
    rw [isFinite_fadd_fmul_isZero _ _ hf, isFinite_fadd_fmul_isZero _ _ hf, cubicFinite]
  unfold cubic
  rw [← hquadratic]
  exact ⟨fun hfin hx1 => fadd_isZero _ (isZero_fmul _ hfin hf) hx1,
    fun hfin => isNan_fadd_isNan _ (isNan_fmul_isZero _ hfin hf) x1⟩

theorem dlReadInterp_of_isFinite (d : Draws) (l : Line) {off : F32} (h : Fp.isFinite off = true) :
    dlReadInterp d l off = cubic d (dlReadTap l (l.size + Fp.floor off - 1)) (dlReadTap l (l.size + Fp.floor off))
      (dlReadTap l (l.size + Fp.floor off + 1)) (dlReadTap l (l.size + Fp.floor off + 2))
      (interpFraction d off) :=
  if_pos h

/-- Settles O43: the fraction is `units off % 2^149`, rounded; at an integer it is a zero, and `cubic_isZero` says what
`CUBIC` then gives. -/
theorem interpolationAtIntegerOffsets : Obligations.InterpolationAtIntegerOffsets := by
  unfold Obligations.InterpolationAtIntegerOffsets
  intro d l off hoff n f x0 x1 x2 x3 a b c r finite
  have hr : r = cubic d x0 x1 x2 x3 f := dlReadInterp_of_isFinite d l hoff
  have hfinite : finite = cubicFinite d x0 x1 x2 x3 := rfl
  obtain ⟨hfin, hf0, hf1⟩ := Fp.fsub_floor_mem_unit (d.nan 19) hoff
  refine ⟨hr, Fp.floor_mul_le off, Fp.units_lt_floor_succ_mul off, hfin, hf0, hf1, fun h0 => ?_, fun hint => ?_⟩
  · exact (Fp.fsub_floor_exact (d.nan 19) hoff h0).2.trans (Fp.units_sub_floor_mul off).symm
  · rw [hr, hfinite]
    exact cubic_isZero d x0 x1 x2 x3 (Fp.isZero_fsub_floor (d.nan 19) hoff hint)

end Sys2Proof.Machine

/-! PROOFS. The mixer (45_tap_mixer.md): the wet sums (R192, R193), the output mix (R194), and the taps of the first
frame after `INIT` (R191). -/

namespace Sys2Proof.Machine

/-! ### The wet sums (R192, R193) -/

theorem tapFirst_plus (v : F32) : tapFirst .plus v = v := rfl

theorem tapFirst_minus (v : F32) : tapFirst .minus v = Fp.fneg v := rfl

theorem tapTerm_plus (q : NanBits) (acc v : F32) : tapTerm q .plus acc v = Fp.fadd q acc v := rfl

theorem tapTerm_minus (q : NanBits) (acc v : F32) : tapTerm q .minus acc v = Fp.fsub q acc v := rfl

theorem tapFirst_eq_ite (g : Sign) (v : F32) : tapFirst g v = if g = .plus then v else v ^^^ 0x80000000#32 := by
  cases g with
  | plus => exact (if_pos rfl).symm
  | minus => exact (if_neg nofun).symm

theorem tapTerm_eq_ite (q : NanBits) (g : Sign) (acc v : F32) :
    tapTerm q g acc v = if g = .plus then Fp.fadd q acc v else Fp.fsub q acc v := by
  cases g with
  | plus => exact (if_pos rfl).symm
  | minus => exact (if_neg nofun).symm

/-- Settles O53: each term is as its sign says; the default table then gives each sign. -/
theorem wetSumsWithDefaultSigns : Obligations.WetSumsWithDefaultSigns := by
  unfold Obligations.WetSumsWithDefaultSigns
  intro d cfg e tv first term
  refine ⟨?left, ?right, fun hsign => ?default⟩
  case left | right =>
    simp only [wetLeft, wetRight, wetSum, tapFirst_eq_ite, tapTerm_eq_ite]
    rfl
  case default =>
    have hplus : ∀ t ∈ [0, 1, 3, 7, 8, 10], tapSignDefault.get t = .plus := by decide
    have hminus : ∀ t ∈ [2, 4, 5, 6, 9, 11, 12, 13], tapSignDefault.get t = .minus := by decide
    simp only [List.forall_mem_cons] at hplus hminus
    simp only [wetLeft, wetRight, wetSum, hsign, hplus, hminus, tapFirst_plus, tapTerm_plus, tapTerm_minus]
    exact ⟨rfl, rfl⟩

namespace Fp

/-! ### Sums with a zero, and products with a gain of at most one -/

theorem fadd_comm_of_isFinite (q : NanBits) {a b : F32} (ha : isFinite a = true) (hb : isFinite b = true) :
    fadd q a b = fadd q b a := by
  rw [fadd_finite q ha hb, fadd_finite q hb ha, add_comm, Bool.and_comm]

theorem isZero_fneg (a : F32) : isZero (fneg a) = isZero a := congrArg (decide <| · = 0) (fneg_mag a)

theorem isZero_fadd (q : NanBits) {a b : F32} (ha : isZero a = true) (hb : isZero b = true) :
    isZero (fadd q a b) = true := by
  refine (zeroOf_fadd q (isFinite_of_isZero ha) (isFinite_of_isZero hb) ?_).1
  rw [isZero_iff_units.1 ha, isZero_iff_units.1 hb, add_zero]

theorem isZero_fsub (q : NanBits) {a b : F32} (ha : isZero a = true) (hb : isZero b = true) :
    isZero (fsub q a b) = true :=
  isZero_fadd q ha ((isZero_fneg b).trans hb)

/-- A product of finite values is no NaN, so it does not depend on the bits drawn for one. -/
theorem fmul_congr_of_isFinite (p q : NanBits) {a b : F32} (ha : isFinite a = true) (hb : isFinite b = true) :
    fmul p a b = fmul q a b := by
  rw [fmul_finite p ha hb, fmul_finite q ha hb]

/-- A gain in `[−1, 1]` does not make a finite value overflow. -/
theorem isFinite_fmul_of_mag_le_one (q : NanBits) {a b : F32} (ha : isFinite a = true) (hb : mag b ≤ mag one) :
    isFinite (fmul q a b) = true := by
  have hmax := natAbs_units_le ha
  have hgain : magUnits (mag b) ≤ 2 ^ 149 := (magUnits_strictMono.monotone hb).trans_eq magUnits_one
  rw [units_natAbs] at hmax
  rw [fmul_finite q ha (isFinite_iff.2 (hb.trans_lt (by decide)))]
  exact isFinite_pack_roundMag (Nat.two_pow_pos 149)
    (Nat.mul_lt_mul_of_lt_of_le (hmax.trans_lt (by decide)) hgain (Nat.two_pow_pos 149))

end Fp

open Fp in
theorem isZero_tapFirst (g : Sign) {v : F32} (hv : isZero v = true) : isZero (tapFirst g v) = true := by
  cases g with
  | plus => exact hv
  | minus => rwa [tapFirst_minus, isZero_fneg]

open Fp in
/-- A later term keeps a wet sum of zeros a zero, whatever the signs. -/
theorem isZero_tapTerm (q : NanBits) (g : Sign) {acc v : F32} (hacc : isZero acc = true) (hv : isZero v = true) :
    isZero (tapTerm q g acc v) = true := by
  cases g with
  | plus => exact isZero_fadd q hacc hv
  | minus => exact isZero_fsub q hacc hv

open Fp in
/-- Taps that all read zeros sum to a zero. -/
theorem isZero_wetSum (d : Draws) {cfg : Config} {e : Engine} (h : ∀ t, isZero (tapRead cfg e t) = true)
    (t0 t1 t2 t3 t4 t5 t6 : Fin 14) : isZero (wetSum d cfg e t0 t1 t2 t3 t4 t5 t6) = true := by
  unfold wetSum
  iterate 6 refine isZero_tapTerm _ _ ?_ (h _)
  exact isZero_tapFirst _ (h t0)

/-! ### The output mix (R194) -/

open Fp in
/-- Where the wet product is a zero, the output is the dry product: as a number, and bit for bit unless it is a zero. -/
theorem outputMix_of_isZero (d : Draws) {input dry wetSample we : F32}
    (hdry : isFinite (fmul (d.nan 0) input dry) = true) (hwet : isZero (fmul (d.nan 1) wetSample we) = true) :
    let r := outputMix d input dry wetSample we
    isFinite r = true ∧ units r = units (fmul (d.nan 0) input dry) ∧
    (isZero (fmul (d.nan 0) input dry) = false → r = fmul (d.nan 0) input dry) := by
  intro r
  have hr : r = fadd (d.nan 2) (fmul (d.nan 1) wetSample we) (fmul (d.nan 0) input dry) :=
    fadd_comm_of_isFinite _ hdry (isFinite_of_isZero hwet)
  rw [hr]
  exact fadd_isZero _ hwet hdry

/-- A wet gain of `+0.0` is `+0.0`. -/
theorem wetGain_posZero (q : NanBits) : wetGain q Fp.posZero = Fp.posZero :=
  Fp.fmul_posZero q (by decide) (by decide)

/-- Settles O55: the dry product is the input, and the wet product a zero. -/
theorem dryInputPassesThrough : Obligations.DryInputPassesThrough := by
  unfold Obligations.DryInputPassesThrough
  intro d q input wetSample hin hwet
  have hdry : Fp.fmul (d.nan 0) input Fp.one = input := Fp.fmul_one _ (Fp.isNan_eq_false_of_isFinite hin)
  have hmix := outputMix_of_isZero d (dry := Fp.one) (we := wetGain q Fp.posZero) (by rwa [hdry])
    (by rw [wetGain_posZero]; exact Fp.isZero_fmul _ hwet rfl)
  rwa [hdry] at hmix

/-! ### The taps after the writes of a frame (R69, R191) -/

/-- What a tap reads, but nothing at the offsets of the cursor cell, which are those that see the frame's write. -/
def Line.earlierTap (l : Line) (k : Int) : Option F32 :=
  if dlIndex l k = l.cur then none else some (dlReadTap l k)

theorem Line.earlierTap_of_ne {l : Line} {k : Int} (h : dlIndex l k ≠ l.cur) :
    l.earlierTap k = some (dlReadTap l k) :=
  if_neg h

theorem Line.readTap_of_earlierTap {l : Line} {k : Int} {v : F32} (h : l.earlierTap k = some v) :
    dlReadTap l k = v := by
  unfold earlierTap at h
  split at h
  · cases h
  · exact Option.some.inj h

theorem earlierTap_dlWrite (l : Line) (v : F32) (k : Int) : (dlWrite l v).earlierTap k = l.earlierTap k := by
  unfold Line.earlierTap
  rw [dlIndex_dlWrite, dlWrite_cur]
  split
  · rfl
  · rename_i hne
    rw [dlReadTap, dlIndex_dlWrite, dlWrite_buf, ramRead_ramWrite_ne _ hne, dlReadTap]

@[simp] theorem earlierTap_lineWrite (ls : Vector Line 12) (i j : Fin 12) (v : F32) (k : Int) :
    ((lineWrite ls i v).get j).earlierTap k = (ls.get j).earlierTap k := by
  by_cases hij : i = j
  · rw [hij, get_lineWrite_same, earlierTap_dlWrite]
  · rw [get_lineWrite_ne _ _ _ hij]

theorem earlierTap_diffuser (d : Draws) (fi si lp1 : F32) (ls : Vector Line 12) (i : Fin 12) (k : Int) :
    ((diffuser d fi si lp1 ls).lines.get i).earlierTap k = (ls.get i).earlierTap k := by
  simp [diffuser, diffuser1, diffuser2, diffuser3, diffuser4]

theorem earlierTap_loopPass (d : Draws) (c : TankCoefficients) (r : LoopLines) (split exc lp : F32)
    (ls : Vector Line 12) (i : Fin 12) (k : Int) :
    ((loopPass d c r split exc lp ls).lines.get i).earlierTap k = (ls.get i).earlierTap k := by
  simp [loopPass, loopLast, loopThird, loopSecond, loopInject]

theorem earlierTap_frameTank (d : Draws) (cfg : Config) (ps : Snapshot) (e : Engine) (i : Fin 12) (k : Int) :
    ((frameTank d cfg ps e).lines.get i).earlierTap k = (e.lines.get i).earlierTap k := by
  simp only [frameTank, earlierTap_loopPass, earlierTap_diffuser]

/-- A tap whose offset misses the cursor cell reads after the twelve writes what it read before them. -/
theorem tapRead_frameTank (d : Draws) {cfg : Config} (ps : Snapshot) {e : Engine} {t : Fin 14}
    (h : dlIndex (e.lines.get (cfg.tapLine.get t)) (e.tapOff.get t).toNat ≠ (e.lines.get (cfg.tapLine.get t)).cur) :
    tapRead cfg (frameTank d cfg ps e) t = tapRead cfg e t := by
  refine Line.readTap_of_earlierTap ?_
  rw [frameTank_tapOff, earlierTap_frameTank, Line.earlierTap_of_ne h, tapRead]

/-! ### The first frame after `INIT` (R194) -/

/-- A line that `INIT` has built reads `+0.0` at every offset (R78). -/
theorem dlReadTap_dlInit (length : Nat) (k : Int) : dlReadTap (dlInit length) k = Fp.posZero := ramRead_nil _

/-- In the first frame every tap that misses the cursor cell reads `+0.0`. -/
theorem tapRead_first_frame (d : Draws) {cfg : Config} {sr : BitVec 32} (ps : Snapshot) (inL inR : F32) {t : Fin 14}
    (h : dlIndex ((construct cfg sr).lines.get (cfg.tapLine.get t)) ((construct cfg sr).tapOff.get t).toNat ≠ 0) :
    tapRead cfg (frameTank (d.shift 10) cfg ps (frameInput d ps (construct cfg sr) inL inR)) t = Fp.posZero := by
  have hcur : ((construct cfg sr).lines.get (cfg.tapLine.get t)).cur = 0 := by
    rw [construct_lines_get]
    rfl
  rw [tapRead_frameTank (d.shift 10) ps (by rwa [frameInput_lines, frameInput_tapOff, hcur]), tapRead,
    frameInput_lines, construct_lines_get, dlReadTap_dlInit]

open Fp in
/-- With the default parameters and a wet sum that is a zero, the output is the input times 0.6. -/
theorem outputMix_default_of_isZero (d : Draws) (q : NanBits) {input wetSample : F32} (hin : isFinite input = true)
    (hwet : isZero wetSample = true) :
    units (outputMix d input (paramDefaults.get Param.dry.id) wetSample (wetGain q (paramDefaults.get Param.wet.id))) =
      units (fmul 0#23 input 0x3F19999A#32) := by
  have hdryGain : paramDefaults.get Param.dry.id = 0x3F19999A#32 := rfl
  have hwetGain : isFinite (wetGain q (paramDefaults.get Param.wet.id)) = true :=
    isFinite_fmul_of_mag_le_one q (by decide) (by decide)
  have hprod : isZero (fmul (d.nan 1) wetSample (wetGain q (paramDefaults.get Param.wet.id))) = true := by
    rw [fmul_isZero _ (isFinite_of_isZero hwet) hwetGain (by rw [hwet, Bool.true_or])]
    exact (zeroOf_pack _).1
  rw [hdryGain, fmul_congr_of_isFinite 0#23 (d.nan 0) hin (by decide)]
  exact (outputMix_of_isZero d (isFinite_fmul_of_mag_le_one _ hin (by decide)) hprod).2.1

/-- Settles O56: all fourteen taps read `+0.0`, so both wet sums are zeros. -/
theorem firstFrameAfterInitIsDry : Obligations.FirstFrameAfterInitIsDry := by
  unfold Obligations.FirstFrameAfterInitIsDry
  intro d cfg sr inL inR _ hmiss hL hR out
  have htaps := fun t => congrArg Fp.isZero
    (tapRead_first_frame d (snapshot (construct cfg sr)) inL inR (hmiss t))
  exact ⟨outputMix_default_of_isZero _ _ hL (isZero_wetSum _ htaps ..),
    outputMix_default_of_isZero _ _ hR (isZero_wetSum _ htaps ..)⟩

end Sys2Proof.Machine
